-- ==== Sys2Proof/Syntax.lean ====
section
/-! DEFINITION. The commands of CORE: one constructor per row of spec/opcode_table.json (30_encoding.md R57). A command word carries no operand (R56). -/

namespace Sys2Proof

/-- The twelve commands. -/
inductive Instr where
  | bufClear
  | bufPush
  | bufRdbyte
  | bufWrbyte
  | bufGetbit
  | bufSetbit
  | crcInit
  | crcCompute
  | crcVerify
  | hamInit
  | hamCompute
  | hamVerify
  deriving DecidableEq, Repr

end Sys2Proof
end

