-- ==== Sys2Proof/Word.lean ====
section
/-! DEFINITION. The words of the machine: the byte of the buffer, the CRC shift register, the parity accumulator. -/

namespace Sys2Proof

/-- The byte, 8 bits (20_memory.md R30). -/
abbrev Byte := BitVec 8

/-- The CRC shift register, 16 bits (10_state.md R16). -/
abbrev Word16 := BitVec 16

/-- The parity and syndrome accumulator, `ACCW = 32` bits (00_scope.md R6, 10_state.md R16). -/
abbrev Acc := BitVec 32

end Sys2Proof
end

