-- ==== Sys2Proof/Decode.lean ====
section
/-! DEFINITION. The command word (30_encoding.md R55, R57 to R59): decoder, encoder, and the reading of an opcode-table word. -/

namespace Sys2Proof

/-- Why a command word is no command (30_encoding.md R58). -/
inductive Reject where
  /-- The unit exists (0, 1, 2) and the operation is not assigned. -/
  | reservedOp
  /-- `UNIT >= 3`: no such unit. -/
  | reservedUnit
  deriving DecidableEq, Repr

/-- What the decoder answers: a command, or a rejection by name. -/
inductive Decoded where
  | command (i : Instr)
  | rejected (r : Reject)
  deriving DecidableEq, Repr

/-- `UNIT = CMD[7:4]` (R55). -/
def unitField (w : Byte) : BitVec 4 := w.extractLsb' 4 4

/-- `OP = CMD[3:0]` (R55). -/
def opField (w : Byte) : BitVec 4 := w.extractLsb' 0 4

/-- Unit 0, the buffer controller (R57). -/
def decodeBuf (op : BitVec 4) : Decoded :=
  match op with
  | 1#4 => .command .bufClear
  | 2#4 => .command .bufPush
  | 3#4 => .command .bufRdbyte
  | 4#4 => .command .bufWrbyte
  | 5#4 => .command .bufGetbit
  | 6#4 => .command .bufSetbit
  | _ => .rejected .reservedOp

/-- Unit 1, the CRC unit (R57). -/
def decodeCrc (op : BitVec 4) : Decoded :=
  match op with
  | 0#4 => .command .crcInit
  | 1#4 => .command .crcCompute
  | 2#4 => .command .crcVerify
  | _ => .rejected .reservedOp

/-- Unit 2, the Hamming unit (R57). -/
def decodeHam (op : BitVec 4) : Decoded :=
  match op with
  | 0#4 => .command .hamInit
  | 1#4 => .command .hamCompute
  | 2#4 => .command .hamVerify
  | _ => .rejected .reservedOp

/-- Every one of the 256 words is a command of R57 or is rejected (R58). -/
def decode (w : Byte) : Decoded :=
  match unitField w with
  | 0#4 => decodeBuf (opField w)
  | 1#4 => decodeCrc (opField w)
  | 2#4 => decodeHam (opField w)
  | _ => .rejected .reservedUnit

/-- A command word from its fields (R55). -/
def commandWord (unit op : BitVec 4) : Byte := unit ++ op

/-- The word of each command (R57). -/
def encode : Instr → Byte
  | .bufClear   => commandWord 0 1
  | .bufPush    => commandWord 0 2
  | .bufRdbyte  => commandWord 0 3
  | .bufWrbyte  => commandWord 0 4
  | .bufGetbit  => commandWord 0 5
  | .bufSetbit  => commandWord 0 6
  | .crcInit    => commandWord 1 0
  | .crcCompute => commandWord 1 1
  | .crcVerify  => commandWord 1 2
  | .hamInit    => commandWord 2 0
  | .hamCompute => commandWord 2 1
  | .hamVerify  => commandWord 2 2

/-- The 8-bit command word that the low `nbits` bits of an opcode-table word stand for: there is one
length, one byte (R59), and the bits above `nbits` are 0. -/
def tableWord (nbits w : Nat) : Byte := BitVec.ofNat 8 (w % 2 ^ nbits)

/-- The command the decoder reads from an opcode-table word (log 15). -/
def decodeTableWord (nbits w : Nat) : Option Instr :=
  match decode (tableWord nbits w) with
  | .command i => some i
  | .rejected _ => none

end Sys2Proof
end

