-- ==== Sys2Proof/Machine/Bits.lean ====
section
/-! DEFINITION. Numbers, bits and byte vectors: the helper functions of 00_scope.md R7, R8 and 20_memory.md R33 to R35. -/

namespace Sys2Proof.Machine

/-- `ceil(a / b)` for `b >= 1` (00_scope.md R7). -/
def ceilDiv (a b : Nat) : Nat := (a + b - 1) / b

/-- `IsPow2(x)` (00_scope.md R8). -/
def isPow2 (x : Nat) : Bool := decide (1 ≤ x) && decide (x &&& (x - 1) = 0)

/-- `Zeros(k)` (00_scope.md R8). -/
def zeros (k : Nat) : List Byte := List.replicate k 0x00#8

/-- `GetBitOrZero(B, i)` (20_memory.md R33). -/
def getBitOrZero (B : List Byte) (i : Nat) : Bool :=
  match B[i / 8]? with
  | some b => b.getLsbD (i % 8)
  | none => false

/-- A byte with bit `t` set to `v` and every other bit kept (20_memory.md R34). -/
def byteWithBit (b : Byte) (t : Nat) (v : Bool) : Byte :=
  let m : Byte := 1#8 <<< t
  if v then b ||| m else b &&& ~~~m

/-- `SetBit(B, i, v)` (20_memory.md R34). Out of range, where the spec leaves it undefined and never
calls it, the vector is returned as it is (log 16). -/
def setBit (B : List Byte) (i : Nat) (v : Bool) : List Byte :=
  B.modify (i / 8) (fun b => byteWithBit b (i % 8) v)

/-- `FlipBit(B, i)` (20_memory.md R35). -/
def flipBit (B : List Byte) (i : Nat) : List Byte :=
  setBit B i (!getBitOrZero B i)

/-- A bit as a byte, `zext_8` (00_scope.md R7). -/
def bitByte (v : Bool) : Byte := if v then 0x01#8 else 0x00#8

end Sys2Proof.Machine
end

