-- ==== Sys2Proof/Config.lean ====
section
/-! DEFINITION. What an implementation fixes: the parameters of an instance of CORE, the constants of the CRC unit, and the one free value. -/

namespace Sys2Proof

/-- One instance of CORE, fixed at construction and never written afterwards (10_state.md R11).
The first five fields are the configuration values the host can read; `bufCap` and `idxw` are the
OPEN parameters `BUF_CAP` and `IDXW` of 00_scope.md R6, `none` meaning unbounded (logs 2, 3). -/
structure Instance where
  codebits    : Nat
  n           : Nat
  databits    : Nat
  paddingbits : Nat
  wordbytes   : Nat
  bufCap      : Option Nat
  idxw        : Option Nat
  deriving DecidableEq, Repr

namespace Config

/-- `ACCW`, the largest number of parity bits (00_scope.md R6). -/
def accw : Nat := 32

/-- `CRC_POLY`, x^16 + x^12 + x^5 + 1 without the x^16 term (00_scope.md R6, 42_crc16.md R90). -/
def crcPoly : Word16 := 0x1021#16

/-- `CRC_INIT` (00_scope.md R6, 42_crc16.md R90). -/
def crcInit : Word16 := 0x84CF#16

/-- `FCS_BYTES` (00_scope.md R6). -/
def fcsBytes : Nat := 2

/-- The buffer an `InternalInconsistency` leaves behind: unspecified (60_exceptions.md R146,
93_implementation_defined.md U2), so a free value with no body; its argument is the counter
`State.freeCount` (log 6). -/
opaque freeBuffer : Nat → List Byte

end Config

/-- The instance of `State.reset`: `CODEBITS = 7` with unbounded `BUF_CAP` and `IDXW`
(DESIGN CHOICE, log 1; the derived sizes are those of 43_hamming.md R111). -/
def Instance.hamming74 : Instance :=
  { codebits := 7, n := 3, databits := 4, paddingbits := 1, wordbytes := 1,
    bufCap := none, idxw := none }

end Sys2Proof
end

