-- ==== Sys2Proof/Machine/State.lean ====
section
/-! DEFINITION. The state of CORE, its stops, and reset (10_state.md). -/

namespace Sys2Proof.Machine

/-- The buffer's bytes as (address, byte) cells. Its one canonical form is `Memory.wf`
(Machine/Memory.lean): the addresses are exactly `0 .. LEN - 1` (log 9). -/
abbrev Memory := List Host.Cell

/-- The kinds of `STATUS.ERR` (10_state.md R15, 60_exceptions.md R141; codes 5 to 7 never occur). -/
inductive ErrKind where
  | noError
  | invalidState
  | internalInconsistency
  | illegalCommand
  | indexOutOfRange
  deriving DecidableEq, Repr

/-- The fields of `STATUS` (10_state.md R15); `Status.word` is the register as the host reads it. -/
structure Status where
  result : Bool
  err    : ErrKind
  halted : Bool
  deriving DecidableEq, Repr

/-- What the host does between commands (10_state.md R10): its register accesses by register number
(R23), its direct reads of the buffer and its load (40_buffer.md R76), and reset
(70_reset_and_hazards.md R160). Writing register 0 starts a command. -/
inductive HostAction where
  | writeReg (number value : Nat)
  | readReg (number : Nat)
  | readByte (index : Nat)
  | readBit (index : Nat)
  | load (bytes : List Byte)
  | reset
  deriving DecidableEq, Repr

/-- The state. `inst` is the instance's configuration (R11), `mem` the buffer `BUF` (R13; `LEN` is
its number of bytes), `idx`, `data`, `rdata` the registers of R14, `status` the register of R15.
The last three fields are the model's own: `pending` the host's actions still to come, oldest first
(log 4); `hostRead` what the host's last read answered (log 5); `freeCount` the counter of free
values (log 6). `CMD` holds no state (R14). -/
structure State where
  inst      : Instance
  mem       : Memory
  idx       : Nat
  data      : Byte
  rdata     : Byte
  status    : Status
  pending   : List HostAction
  hostRead  : Nat
  freeCount : Nat
  deriving DecidableEq, Repr

/-- Why the machine stops. -/
inductive Fault where
  /-- Raised by the host's own `readByte` of a byte that does not exist, `index >= LEN`
  (10_state.md R13, 20_memory.md R37; log 7). No command raises it. Safe: the run stops. -/
  | noSuchByte
  deriving DecidableEq, Repr

/-- Why a step has no meaning. -/
inductive Refusal where
  /-- Answered by `exec` for a command that has no meaning yet; none is left. Safe. -/
  | notModelled (mnemonic : String)
  /-- Answered when a command or a host load would make `LEN` exceed a finite `BUF_CAP`
  (20_memory.md R41; log 2). Safe. -/
  | overCapacity
  /-- Answered by the Hamming commands when the bit indices of a buffer do not fit in a finite
  `IDXW` (93_implementation_defined.md U5; log 3). Safe. -/
  | indexTooWide
  /-- Answered by a host write of a value that the register's width cannot hold
  (00_scope.md R7; log 8). Safe. -/
  | valueTooWide
  deriving DecidableEq, Repr

/-- `STATUS` after reset (10_state.md R21). -/
def Status.reset : Status := { result := false, err := .noError, halted := false }

/-- The state after reset of instance `c`, every value that of 10_state.md R21. -/
def State.resetOf (c : Instance) : State :=
  { inst := c, mem := [], idx := 0, data := 0x00#8, rdata := 0x00#8, status := Status.reset,
    pending := [], hostRead := 0, freeCount := 0 }

/-- The machine right after reset: the instance `CODEBITS = 7` (log 1). -/
def State.reset : State := State.resetOf Instance.hamming74

end Sys2Proof.Machine
end

