-- ==== Sys2Proof/Machine/Flags.lean ====
section
/-! DEFINITION. STATUS: the codes of its fields, the register as the host reads it, and the two ways a command writes it (10_state.md R15). -/

namespace Sys2Proof.Machine

/-- The code of an error kind in `STATUS[3:1]` (60_exceptions.md R141). -/
def ErrKind.code : ErrKind → BitVec 3
  | .noError => 0#3
  | .invalidState => 1#3
  | .internalInconsistency => 2#3
  | .illegalCommand => 3#3
  | .indexOutOfRange => 4#3

/-- The 8-bit register: RESULT in bit 0, ERR in bits 3:1, HALTED in bit 4, zeros above (R15). -/
def Status.word (st : Status) : Byte :=
  0#3 ++ (BitVec.ofBool st.halted ++ (st.err.code ++ BitVec.ofBool st.result))

/-- A command ends without error: `ERR <- None`, `RESULT <- r`; HALTED stays (R15). -/
def Status.ended (st : Status) (r : Bool) : Status :=
  { result := r, err := .noError, halted := st.halted }

/-- A command raises `e`: `ERR <- code(e)`, `RESULT <- 0`, and `HALTED <- 1` for
`InternalInconsistency` (60_exceptions.md R150). -/
def Status.raised (st : Status) (e : ErrKind) : Status :=
  { result := false, err := e, halted := st.halted || decide (e = .internalInconsistency) }

end Sys2Proof.Machine
end

