-- ==== Sys2Proof/Machine/Memory.lean ====
section
/-! DEFINITION. The buffer as a list of cells: reading and writing one byte by its address, and the byte vector it stands for. -/

namespace Sys2Proof.Machine

/-- The canonical form: the cells' addresses are exactly `0, 1, .., LEN - 1`, in that order
(20_memory.md R37: byte addresses `0 .. LEN - 1`). So addresses rise strictly, every listed address
exists, and equal buffers are equal lists. -/
abbrev Memory.wf (m : Memory) : Prop := m.map Prod.fst = List.range m.length

/-- `MemRead(a, 1)` (00_scope.md R8); `none` where no byte exists (10_state.md R13). -/
def Memory.read (m : Memory) (a : Nat) : Option Byte := m.lookup a

/-- `MemWrite(a, 1, v)` (00_scope.md R8): the byte at an existing address replaced. -/
def Memory.write (m : Memory) (a : Nat) (v : Byte) : Memory :=
  m.map (fun c => if c.1 = a then (a, v) else c)

/-- The byte vector a memory stands for. -/
def Memory.bytes (m : Memory) : List Byte := m.map Prod.snd

/-- Cells for a byte vector laid out from address `a` on. -/
def Memory.cellsFrom (a : Nat) : List Byte → Memory
  | [] => []
  | b :: bs => (a, b) :: Memory.cellsFrom (a + 1) bs

/-- The memory of a byte vector. -/
def Memory.ofBytes (bs : List Byte) : Memory := Memory.cellsFrom 0 bs

end Sys2Proof.Machine
end

