-- ==== Sys2Proof/Machine/Operands.lean ====
section
/-! DEFINITION. The operand forms of the commands: IDX and DATA (30_encoding.md R56). -/

namespace Sys2Proof.Machine

/-- `IDX` as a byte index: the number exactly as written (R56). -/
def State.byteIndex (s : State) : Nat := s.idx

/-- `IDX` as a bit index, in the convention of 20_memory.md R32 (R56). -/
def State.bitIndex (s : State) : Nat := s.idx

/-- `DATA[7:0]`, the byte operand (R56). -/
def State.dataByte (s : State) : Byte := s.data

/-- `DATA[0]`, the bit operand; bits 7:1 are ignored (R56). -/
def State.dataBit (s : State) : Bool := s.data.getLsbD 0

end Sys2Proof.Machine
end

