-- ==== Sys2Proof/Machine/Ops.lean ====
section
/-! DEFINITION. The named operations the commands share: reading and replacing the buffer, writing the registers, ending a command, raising an error, and the limits of the OPEN parameters. -/

namespace Sys2Proof.Machine

/-- What a command or a host action answers. -/
abbrev Answer := Host.Outcome State Fault Refusal

/-- `BUF` as a byte vector (10_state.md R13). -/
def State.buf (s : State) : List Byte := s.mem.bytes

/-- `LEN` (10_state.md R13). -/
def State.len (s : State) : Nat := s.mem.length

/-- `BUF <- B; LEN <- Len(B)` (20_memory.md R36). -/
def State.setBuf (s : State) (B : List Byte) : State := { s with mem := Memory.ofBytes B }

/-- `MemWrite(a, 1, v)`, for `a < LEN` (00_scope.md R8). -/
def State.memWrite (s : State) (a : Nat) (v : Byte) : State := { s with mem := s.mem.write a v }

/-- `IDX <- v`. -/
def State.setIdx (s : State) (v : Nat) : State := { s with idx := v }

/-- `DATA <- v`. -/
def State.setData (s : State) (v : Byte) : State := { s with data := v }

/-- `RDATA <- v`. -/
def State.setRdata (s : State) (v : Byte) : State := { s with rdata := v }

/-- `STATUS` replaced. -/
def State.setStatus (s : State) (st : Status) : State := { s with status := st }

/-- The value a host read answers (log 5). -/
def State.setHostRead (s : State) (v : Nat) : State := { s with hostRead := v }

/-- The host's remaining actions replaced (log 4). -/
def State.setPending (s : State) (q : List HostAction) : State := { s with pending := q }

/-- The next free value is taken (log 6). -/
def State.bumpFree (s : State) : State := { s with freeCount := s.freeCount + 1 }

/-- A command ends without error: `STATUS.ERR <- None; STATUS.RESULT <- r`. -/
def State.finish (s : State) (r : Bool) : State := s.setStatus (s.status.ended r)

/-- `raise e`, the one error entry (60_exceptions.md R150): STATUS is written and nothing else
changes; there is no vector, no saved program counter and no mode. There is no return from it
either: the next command simply runs (R151), or, after `InternalInconsistency`, only reset helps. -/
def State.raise (s : State) (e : ErrKind) : State := s.setStatus (s.status.raised e)

/-- A command is executed only while `STATUS.HALTED = 0`; otherwise it changes nothing, STATUS
included (60_exceptions.md R152). -/
def State.whenRunning (s : State) (k : Answer) : Answer :=
  if s.status.halted then .next s else k

/-- A buffer of `len` bytes is within `BUF_CAP` (20_memory.md R41; log 2). -/
def Instance.capOk (c : Instance) (len : Nat) : Bool :=
  match c.bufCap with
  | none => true
  | some cap => decide (len ≤ cap)

/-- The value `v` fits in `IDXW` bits (10_state.md R14; log 3). -/
def Instance.fitsIdx (c : Instance) (v : Nat) : Bool :=
  match c.idxw with
  | none => true
  | some w => decide (v < 2 ^ w)

/-- The bit indices of a buffer of `len` bytes fit in `IDXW` bits, `8 * LEN` itself included
(93_implementation_defined.md U5; log 3). -/
def Instance.bitsFit (c : Instance) (len : Nat) : Bool := Instance.fitsIdx c (8 * len)

/-- A buffer cut to `BUF_CAP`: the limit a free buffer still obeys (log 6). -/
def Instance.cut (c : Instance) (B : List Byte) : List Byte :=
  match c.bufCap with
  | none => B
  | some cap => B.take cap

/-- A command that makes the buffer longer ends with `B`, or is refused when `B` would exceed
`BUF_CAP` (20_memory.md R41). -/
def State.growTo (s : State) (B : List Byte) : Answer :=
  if Instance.capOk s.inst B.length then .next ((s.setBuf B).finish false)
  else .refused .overCapacity

/-- `HAM.VERIFY` is abandoned part-way (60_exceptions.md R146): the buffer is unspecified, a free
value within `BUF_CAP`, and `InternalInconsistency` is raised (log 6). -/
def State.abandon (s : State) : State :=
  ((s.setBuf (Instance.cut s.inst (Config.freeBuffer s.freeCount))).bumpFree).raise
    .internalInconsistency

/-- `IllegalCommand`: a `CMD` value that is no command (60_exceptions.md R147). -/
def State.illegalCommand (s : State) : Answer :=
  s.whenRunning (.next (s.raise .illegalCommand))

/-- A host read of register `number` (10_state.md R23): `CMD` and the unassigned numbers read 0. -/
def State.readReg (s : State) (number : Nat) : Nat :=
  match number with
  | 0 => 0
  | 1 => s.status.word.toNat
  | 2 => s.idx
  | 3 => s.data.toNat
  | 4 => s.rdata.toNat
  | 5 => s.len
  | 8 => s.inst.codebits
  | 9 => s.inst.n
  | 10 => s.inst.databits
  | 11 => s.inst.paddingbits
  | 12 => s.inst.wordbytes
  | _ => 0

end Sys2Proof.Machine
end

