-- ==== Sys2Proof/Machine/Buf.lean ====
section
/-! DEFINITION. The commands of the buffer controller (40_buffer.md R70 to R75). -/

namespace Sys2Proof.Machine

/-- `BUF.CLEAR` (R70). -/
def execBufClear (s : State) : Answer :=
  s.whenRunning (.next ((s.setBuf []).finish false))

/-- `BUF.PUSH` (R71). -/
def execBufPush (s : State) : Answer :=
  s.whenRunning (s.growTo (s.buf ++ [s.dataByte]))

/-- `BUF.RDBYTE` (R72); `IDX >= LEN` exactly where no byte exists (10_state.md R13). -/
def execBufRdbyte (s : State) : Answer :=
  s.whenRunning
    (match s.mem.read s.byteIndex with
     | some b => .next ((s.setRdata b).finish false)
     | none => .next (s.raise .indexOutOfRange))

/-- `BUF.WRBYTE` (R73). -/
def execBufWrbyte (s : State) : Answer :=
  s.whenRunning
    (if s.len ≤ s.byteIndex then .next (s.raise .indexOutOfRange)
     else .next ((s.memWrite s.byteIndex s.dataByte).finish false))

/-- `BUF.GETBIT` (R74). -/
def execBufGetbit (s : State) : Answer :=
  s.whenRunning (.next ((s.setRdata (bitByte (getBitOrZero s.buf s.bitIndex))).finish false))

/-- `BUF.SETBIT` (R75). -/
def execBufSetbit (s : State) : Answer :=
  s.whenRunning
    (if s.len ≤ s.bitIndex / 8 then .next (s.raise .indexOutOfRange)
     else .next ((s.setBuf (setBit s.buf s.bitIndex s.dataBit)).finish false))

end Sys2Proof.Machine
end

