-- ==== Sys2Proof/Machine/Crc.lean ====
section
/-! DEFINITION. The CRC-16-CCITT unit (42_crc16.md R90 to R96). -/

namespace Sys2Proof.Machine

/-- `BitRev8(b)` (R91): bit `t` of the result is bit `7 - t` of `b`. The list runs from bit 7 of the
result down to bit 0. -/
def bitRev8 (b : Byte) : Byte :=
  BitVec.ofBool (b.getLsbD 0) ++ (BitVec.ofBool (b.getLsbD 1) ++ (BitVec.ofBool (b.getLsbD 2) ++
  (BitVec.ofBool (b.getLsbD 3) ++ (BitVec.ofBool (b.getLsbD 4) ++ (BitVec.ofBool (b.getLsbD 5) ++
  (BitVec.ofBool (b.getLsbD 6) ++ BitVec.ofBool (b.getLsbD 7)))))))

/-- `CrcStep(reg, in)` (R92): the tested bit 15 is that before the shift. -/
def crcStep (reg : Word16) (inBit : Bool) : Word16 :=
  let t : Word16 := (reg <<< 1) ||| (BitVec.ofBool inBit).setWidth 16
  if reg.getLsbD 15 then t ^^^ Config.crcPoly else t

/-- The eight steps of one byte, its reversed bits from bit 0 to bit 7 (R93). -/
def crcByte (reg : Word16) (b : Byte) : Word16 :=
  (List.range 8).foldl (fun r t => crcStep r ((bitRev8 b).getLsbD t)) reg

/-- The register after a byte vector, before the final inversion (R93). -/
def crcRegister (B : List Byte) : Word16 := B.foldl crcByte Config.crcInit

/-- `DoCompute(B)` (R93). -/
def doCompute (B : List Byte) : Word16 := ~~~(crcRegister B)

/-- The high byte of a checksum, stored first (R95). -/
def fcsHigh (c : Word16) : Byte := c.extractLsb' 8 8

/-- The low byte of a checksum, stored last (R95). -/
def fcsLow (c : Word16) : Byte := c.extractLsb' 0 8

/-- `CRC.INIT` (R94). -/
def execCrcInit (s : State) : Answer :=
  s.whenRunning (s.growTo (s.buf ++ zeros Config.fcsBytes))

/-- `CRC.COMPUTE` (R95): the two checksum bytes are two one-byte writes. -/
def execCrcCompute (s : State) : Answer :=
  s.whenRunning
    (if s.len < Config.fcsBytes then .next (s.raise .invalidState)
     else
       let c := doCompute s.buf
       .next (((s.memWrite (s.len - 2) (fcsHigh c)).memWrite (s.len - 1) (fcsLow c)).finish false))

/-- `CRC.VERIFY` (R96): a too short buffer is the boolean `false` and no error. -/
def execCrcVerify (s : State) : Answer :=
  s.whenRunning
    (if s.len < Config.fcsBytes then .next (s.finish false)
     else
       let c := doCompute s.buf
       .next ((s.setBuf (s.buf.take (s.len - Config.fcsBytes))).finish (c == 0x0000#16)))

end Sys2Proof.Machine
end

