-- ==== Sys2Proof/Machine/Ham.lean ====
section
/-! DEFINITION. The Hamming unit (43_hamming.md R112 to R123), each loop as the spec's pseudocode runs it. -/

namespace Sys2Proof.Machine

/-- `Base(w)`, the bit index of position 1 of code word `w` (20_memory.md R46). -/
def wordBase (c : Instance) (w : Nat) : Nat := 8 * c.wordbytes * w

/-- `IsParityPos(pos)` (30_encoding.md R50). -/
def isParityPos (pos : Nat) : Bool := isPow2 pos

/-- One step of the scan of `Parity` at 0-based position `q` (R112). -/
def parityStep (c : Instance) (B : List Byte) (w p : Nat) (x : Bool) (q : Nat) : Bool :=
  if (q + 1) &&& p = 0 then x else x ^^ getBitOrZero B (wordBase c w + q)

/-- `Parity(B, w, p)` (R112): positions `q = p .. CODEBITS - 1`. -/
def parity (c : Instance) (B : List Byte) (w p : Nat) : Bool :=
  (List.range' p (c.codebits - p)).foldl (parityStep c B w p) false

/-! ### `HAM.INIT` (R115) -/

/-- One bit position `q` of word `w`; the second component is `t`, the next unread payload bit. -/
def initPos (c : Instance) (B : List Byte) (w : Nat) (a : List Byte × Nat) (q : Nat) :
    List Byte × Nat :=
  if isParityPos (q + 1) then a
  else (setBit a.1 (wordBase c w + q) (getBitOrZero B a.2), a.2 + 1)

/-- One word, its positions in increasing order. -/
def initWord (c : Instance) (B : List Byte) (a : List Byte × Nat) (w : Nat) : List Byte × Nat :=
  (List.range c.codebits).foldl (initPos c B w) a

/-- `words = ceil(payloadBits / DATABITS)` for a payload of `len` bytes. -/
def initWords (c : Instance) (len : Nat) : Nat := ceilDiv (8 * len) c.databits

/-- The encoded buffer `OUT`. -/
def hamInitBuf (c : Instance) (B : List Byte) : List Byte :=
  ((List.range (initWords c B.length)).foldl (initWord c B)
    (zeros (initWords c B.length * c.wordbytes), 0)).1

/-- `HAM.INIT` (R115); refused when the bit indices of either buffer do not fit in a finite `IDXW`
(93_implementation_defined.md U5; log 3). -/
def execHamInit (s : State) : Answer :=
  s.whenRunning
    (let words := initWords s.inst s.len
     if Instance.bitsFit s.inst s.len && Instance.bitsFit s.inst (words * s.inst.wordbytes) then
       s.growTo (hamInitBuf s.inst s.buf)
     else .refused .indexTooWide)

/-! ### `HAM.COMPUTE` (R116) -/

/-- The parity bit of rank `k` of word `w` stored at its position. -/
def computeBit (c : Instance) (w : Nat) (B : List Byte) (k : Nat) : List Byte :=
  setBit B (wordBase c w + 2 ^ k - 1) (parity c B w (2 ^ k))

/-- One word, its ranks in increasing order. -/
def computeWord (c : Instance) (B : List Byte) (w : Nat) : List Byte :=
  (List.range c.n).foldl (computeBit c w) B

/-- The buffer with every word's parity bits stored. -/
def hamComputeBuf (c : Instance) (B : List Byte) : List Byte :=
  (List.range (B.length / c.wordbytes)).foldl (computeWord c) B

/-- `HAM.COMPUTE` (R116): the length check comes before any write. -/
def execHamCompute (s : State) : Answer :=
  s.whenRunning
    (if s.len % s.inst.wordbytes ≠ 0 then .next (s.raise .invalidState)
     else if Instance.bitsFit s.inst s.len then
       .next ((s.setBuf (hamComputeBuf s.inst s.buf)).finish false)
     else .refused .indexTooWide)

/-! ### `HAM.VERIFY` (R117 to R123) -/

/-- A parity vector with bit `k` set to `v`; the vectors start at 0 (R117). -/
def accBit (v : Acc) (k : Nat) (b : Bool) : Acc := if b then v ||| (1#32 <<< k) else v

/-- `NEWPAR`: the recomputed parity vector of word `w`, bit `k` for parity position `2^k` (R117). -/
def newPar (c : Instance) (B : List Byte) (w : Nat) : Acc :=
  (List.range c.n).foldl (fun v k => accBit v k (parity c B w (2 ^ k))) 0#32

/-- `OLDPAR`: the stored parity vector, same ordering (R117). -/
def oldPar (c : Instance) (B : List Byte) (w : Nat) : Acc :=
  (List.range c.n).foldl
    (fun v k => accBit v k (getBitOrZero B (wordBase c w + 2 ^ k - 1))) 0#32

/-- `ERRBIT`, the syndrome read as an unsigned number (R118); 0 after `HAM.COMPUTE` (R126 (e)). -/
def syndrome (c : Instance) (B : List Byte) (w : Nat) : Nat :=
  (newPar c B w ^^^ oldPar c B w).toNat

/-- What the loop over the words carries: the buffer under correction, `OUT`, and `o`, the next
output bit index (R117). -/
structure VerifyAcc where
  buf : List Byte
  out : List Byte
  o   : Nat
  deriving DecidableEq, Repr

/-- One bit position `q` of word `w`: a data bit is copied to the output (R117). -/
def extractPos (c : Instance) (w : Nat) (a : VerifyAcc) (q : Nat) : VerifyAcc :=
  if isParityPos (q + 1) then a
  else { a with out := setBit a.out a.o (getBitOrZero a.buf (wordBase c w + q)), o := a.o + 1 }

/-- The flip of rule R119, relative to the word; nothing for syndrome 0. -/
def correctWord (c : Instance) (B : List Byte) (w e : Nat) : List Byte :=
  if 1 ≤ e then flipBit B (wordBase c w + e - 1) else B

/-- One word: syndrome, correction, extraction; `none` is `InternalInconsistency` (R117). -/
def verifyWord (c : Instance) (a : VerifyAcc) (w : Nat) : Option VerifyAcc :=
  let e := syndrome c a.buf w
  if c.codebits < e then none
  else some ((List.range c.codebits).foldl (extractPos c w)
    { a with buf := correctWord c a.buf w e })

/-- The words in increasing order, stopping at the first inconsistency (60_exceptions.md R149). -/
def verifyWords (c : Instance) : List Nat → VerifyAcc → Option VerifyAcc
  | [], a => some a
  | w :: ws, a =>
    match verifyWord c a w with
    | some a' => verifyWords c ws a'
    | none => none

/-- The extracted payload, `ceil(words * DATABITS / 8)` bytes (R120). The laws of R126 are about it:
the round trip (a), the single-bit correction (b) and the deterministic miscorrection (c). -/
def hamVerifyBuf (c : Instance) (B : List Byte) : Option (List Byte) :=
  let words := B.length / c.wordbytes
  match verifyWords c (List.range words)
      { buf := B, out := zeros (ceilDiv (words * c.databits) 8), o := 0 } with
  | some a => some a.out
  | none => none

/-- `HAM.VERIFY` (R117): always `true` once it runs (R122). -/
def execHamVerify (s : State) : Answer :=
  s.whenRunning
    (if s.len % s.inst.wordbytes ≠ 0 then .next (s.raise .invalidState)
     else if Instance.bitsFit s.inst s.len then
       match hamVerifyBuf s.inst s.buf with
       | some out => .next ((s.setBuf out).finish true)
       | none => .next s.abandon
     else .refused .indexTooWide)

end Sys2Proof.Machine
end

