-- ==== Sys2Proof/Machine/Dispatch.lean ====
section
/-! DEFINITION. The meaning of each command: one arm per constructor of Instr. -/

namespace Sys2Proof.Machine

/-- One command executed. -/
def exec (i : Instr) (s : State) : Host.Outcome State Fault Refusal :=
  match i with
  | .bufClear => Sys2Proof.Machine.execBufClear s
  | .bufPush => Sys2Proof.Machine.execBufPush s
  | .bufRdbyte => Sys2Proof.Machine.execBufRdbyte s
  | .bufWrbyte => Sys2Proof.Machine.execBufWrbyte s
  | .bufGetbit => Sys2Proof.Machine.execBufGetbit s
  | .bufSetbit => Sys2Proof.Machine.execBufSetbit s
  | .crcInit => Sys2Proof.Machine.execCrcInit s
  | .crcCompute => Sys2Proof.Machine.execCrcCompute s
  | .crcVerify => Sys2Proof.Machine.execCrcVerify s
  | .hamInit => Sys2Proof.Machine.execHamInit s
  | .hamCompute => Sys2Proof.Machine.execHamCompute s
  | .hamVerify => Sys2Proof.Machine.execHamVerify s

end Sys2Proof.Machine
end

