-- ==== Sys2Proof/Machine/HostPort.lean ====
section
/-! DEFINITION. What each action of the host does (10_state.md R10, R23; 40_buffer.md R76; 70_reset_and_hazards.md R160). -/

namespace Sys2Proof.Machine

/-- The value `v` written to `CMD`: the command it encodes, or `IllegalCommand`
(30_encoding.md R55, R58). -/
def runCommandWord (v : Byte) (s : State) : Answer :=
  match decode v with
  | .command i => exec i s
  | .rejected _ => s.illegalCommand

/-- A host write of `value` to register `number` (10_state.md R23): a write to a read-only or
unassigned register is ignored. A value wider than the register is refused (log 8). -/
def hostWrite (number value : Nat) (s : State) : Answer :=
  match number with
  | 0 =>
    if value < 2 ^ 8 then runCommandWord (BitVec.ofNat 8 value) s
    else .refused .valueTooWide
  | 2 =>
    if Instance.fitsIdx s.inst value then .next (s.setIdx value) else .refused .valueTooWide
  | 3 =>
    if value < 2 ^ 8 then .next (s.setData (BitVec.ofNat 8 value)) else .refused .valueTooWide
  | _ => .next s

/-- A direct host read of byte `index` of the buffer (40_buffer.md R76). No byte exists at or beyond
`LEN` (10_state.md R13; log 7). -/
def hostReadByte (index : Nat) (s : State) : Answer :=
  match s.mem.read index with
  | some b => .next (s.setHostRead b.toNat)
  | none => .fault .noSuchByte

/-- A direct host read of bit `index` of the buffer: 0 beyond the end (20_memory.md R33, R37). -/
def hostReadBit (index : Nat) (s : State) : Answer :=
  .next (s.setHostRead (getBitOrZero s.buf index).toNat)

/-- The host load (40_buffer.md R76): STATUS, IDX, DATA and RDATA are not touched. -/
def hostLoad (B : List Byte) (s : State) : Answer :=
  if Instance.capOk s.inst B.length then .next (s.setBuf B) else .refused .overCapacity

/-- Reset (70_reset_and_hazards.md R160): every piece of state at the value of 10_state.md R21, the
instance unchanged. The host's own remaining actions and last read, and the counter of free values,
are not CORE's and stay (log 12). -/
def hostReset (s : State) : Answer :=
  .next { State.resetOf s.inst with
    pending := s.pending, hostRead := s.hostRead, freeCount := s.freeCount }

/-- One action of the host. -/
def hostStep (a : HostAction) (s : State) : Answer :=
  match a with
  | .writeReg number value => hostWrite number value s
  | .readReg number => .next (s.setHostRead (s.readReg number))
  | .readByte index => hostReadByte index s
  | .readBit index => hostReadBit index s
  | .load B => hostLoad B s
  | .reset => hostReset s

/-- One step: the host's next action. With no action left the machine is idle and nothing changes
(20_memory.md R43: "nothing changes them until the next host action"; log 4). -/
def stepHost (s : State) : Answer :=
  match s.pending with
  | [] => .next s
  | a :: rest => hostStep a (s.setPending rest)

/-- The host's next action is the write of an opcode-table word to `CMD` (log 4). -/
def placeCommand (s : State) (v : Byte) : State :=
  s.setPending (.writeReg 0 v.toNat :: s.pending)

end Sys2Proof.Machine
end

