-- ==== Sys2Proof/Machine/Step.lean ====
section
/-! DEFINITION. The step of the machine, and the state whose next step runs a given opcode-table word. -/

namespace Sys2Proof.Machine

/-- One step (10_state.md R10). -/
def step (s : State) : Host.Outcome State Fault Refusal := stepHost s

/-- `s` with the opcode-table word as the host's next write to `CMD` (log 4). -/
def State.withFetchWord (s : State) (nbits w : Nat) : State :=
  placeCommand s (Sys2Proof.tableWord nbits w)

end Sys2Proof.Machine
end

