-- ==== Sys2Proof/Machine/Construct.lean ====
section
/-! DEFINITION. Construction of an instance (43_hamming.md R110). -/

namespace Sys2Proof.Machine

/-- `Construct(codebits)`; `none` is `ConstructionError`: "no instance exists"
(60_exceptions.md R142, 92_eei_decisions.md D4). The OPEN parameters default to unbounded. -/
def construct (codebits : Nat) (bufCap idxw : Option Nat := none) : Option Instance :=
  if 2 < codebits ∧ isPow2 (codebits + 1) = true then
    let n := Nat.log2 (codebits + 1)
    if Config.accw < n then none
    else
      let padding := (8 - codebits % 8) % 8
      some { codebits := codebits, n := n, databits := codebits - n, paddingbits := padding,
             wordbytes := (codebits + padding) / 8, bufCap := bufCap, idxw := idxw }
  else none

end Sys2Proof.Machine
end

