-- ==== Sys2Proof/WellFormed.lean ====
section
/-! DEFINITION. Which commands and which instances are well formed. -/

namespace Sys2Proof

/-- Every command is well formed: "There are no immediates inside the command word"
(30_encoding.md R56), so a command has no field that could be out of range. -/
def Instr.wf : Instr → Bool
  | .bufClear | .bufPush | .bufRdbyte | .bufWrbyte | .bufGetbit | .bufSetbit
  | .crcInit | .crcCompute | .crcVerify | .hamInit | .hamCompute | .hamVerify => true

/-- An instance that construction can build: the five values stand to each other as 10_state.md R11
says, with `2 <= N <= ACCW` (43_hamming.md R110). The OPEN parameters are not constrained. -/
abbrev Instance.wf (c : Instance) : Prop :=
  2 ≤ c.n ∧ c.n ≤ Config.accw ∧
  2 ^ c.n = c.codebits + 1 ∧
  c.databits = c.codebits - c.n ∧
  c.paddingbits = (8 - c.codebits % 8) % 8 ∧
  c.wordbytes = (c.codebits + c.paddingbits) / 8

end Sys2Proof
end

