-- ==== Sys2Proof/Safety.lean ====
section
/-! DEFINITION. What a good state and a run are, and the closed forms of the Hamming code that claims are stated in. -/

namespace Sys2Proof.Machine

/-- The invariant of a constructed instance: its configuration is one that construction builds
(43_hamming.md R110), its buffer is in canonical form and within `BUF_CAP` (20_memory.md R37, R41),
`IDX` fits its width (10_state.md R14), and it is not halted (60_exceptions.md R152). -/
abbrev State.Inv (s : State) : Prop :=
  s.inst.wf ∧ s.mem.wf ∧ Instance.capOk s.inst s.len = true ∧
  Instance.fitsIdx s.inst s.idx = true ∧ s.status.halted = false ∧
  s.status.err ≠ .internalInconsistency

/-- STATUS holds together (60_exceptions.md R150): HALTED exactly with `InternalInconsistency`, and
no RESULT beside an error. It asks nothing of the instance. -/
abbrev State.StatusCoherent (s : State) : Prop :=
  (s.status.halted = true ↔ s.status.err = .internalInconsistency) ∧
  (s.status.err ≠ .noError → s.status.result = false)

/-- STATUS after a command that ends without error, with RESULT `r` (10_state.md R15). -/
abbrev okStatus (r : Bool) : Status := { result := r, err := .noError, halted := false }

/-- STATUS after a command that raises `e`, for the kinds that do not halt (R150). -/
abbrev errStatus (e : ErrKind) : Status := { result := false, err := e, halted := false }

/-- Everything but the buffer and STATUS is as before. -/
abbrev RegistersKept (s t : State) : Prop :=
  t = { s with mem := t.mem, status := t.status }

/-- The twelve command words (30_encoding.md R57). -/
def commandWords : List Byte :=
  [0x01, 0x02, 0x03, 0x04, 0x05, 0x06, 0x10, 0x11, 0x12, 0x20, 0x21, 0x22]

/-- The states a constructed instance can reach, whatever list of actions the host performs. -/
inductive Reachable (c : Instance) : State → Prop where
  | start (actions : List HostAction) : Reachable c ((State.resetOf c).setPending actions)
  | next {s t : State} : Reachable c s → step s = .next t → Reachable c t

/-- The CRC frame of a payload (30_encoding.md R54). -/
def crcFrame (P : List Byte) : List Byte :=
  P ++ [fcsHigh (doCompute (P ++ zeros 2)), fcsLow (doCompute (P ++ zeros 2))]

/-- The bits of a byte vector in the order the CRC unit consumes them: bytes in increasing index,
within a byte the most significant bit first (20_memory.md R38). -/
def msbFirstBits (B : List Byte) : List Bool :=
  B.flatMap (fun b => (List.range 8).map (fun t => b.getLsbD (7 - t)))

/-- One step of the direct (table-free) form of a CRC with polynomial 0x1021: the message bit meets
bit 15 of the register (42_crc16.md R100). -/
def directStep (reg : Word16) (b : Bool) : Word16 :=
  if reg.getLsbD 15 ^^ b then (reg <<< 1) ^^^ 0x1021#16 else reg <<< 1

/-- Length in bytes of the Hamming encoding of `len` payload bytes (30_encoding.md R53). -/
abbrev encodedLen (c : Instance) (len : Nat) : Nat := initWords c len * c.wordbytes

/-- The bit at 1-based position `pos` of code word `w` (20_memory.md R46). -/
def wordBit (c : Instance) (B : List Byte) (w pos : Nat) : Bool :=
  getBitOrZero B (wordBase c w + (pos - 1))

/-- The number of the data position `pos` (30_encoding.md R50): how many data positions lie below. -/
def dataRank (pos : Nat) : Nat :=
  ((List.range' 1 (pos - 1)).filter (fun p => !isPow2 p)).length

/-- A data position of a code word (30_encoding.md R50). -/
abbrev isDataPos (c : Instance) (pos : Nat) : Prop :=
  1 ≤ pos ∧ pos ≤ c.codebits ∧ isPow2 pos = false

/-- The parity a parity position `p` should hold: the XOR of the bits at the positions it covers,
`p < pos <= CODEBITS` with `pos & p != 0` (30_encoding.md R52). -/
def coveredParity (c : Instance) (B : List Byte) (w p : Nat) : Bool :=
  (((List.range' 1 c.codebits).filter (fun pos => decide (p < pos) && (pos &&& p != 0))).map
    (wordBit c B w)).foldl xor false

/-- The XOR of the 1-based positions of a word's one bits: 0 for a code word, and otherwise what
the syndrome is (43_hamming.md R118). -/
def positionXor (c : Instance) (B : List Byte) (w : Nat) : Nat :=
  ((List.range' 1 c.codebits).filter (wordBit c B w)).foldl (fun x pos => x ^^^ pos) 0

/-- Word `w` is a code word: `HAM.VERIFY` computes syndrome 0 for it (43_hamming.md R118, R126). -/
abbrev IsCodeWord (c : Instance) (B : List Byte) (w : Nat) : Prop := syndrome c B w = 0

/-- The buffer with the bits at positions `p` and `q` of word `w` inverted, the two-bit corruption
of law (c) (43_hamming.md R124, R126). -/
def flipPositions (c : Instance) (B : List Byte) (w p q : Nat) : List Byte :=
  flipBit (flipBit B (wordBase c w + (p - 1))) (wordBase c w + (q - 1))

end Sys2Proof.Machine
end

