-- ==== Sys2Proof/Certificates/Slice0/Obligations.lean ====
section
/-! DEFINITION. The statements for the provers, each after the rules of spec/ its docstring names. -/

open Sys2Proof Sys2Proof.Machine

/-- The twelve words of the opcode map decode to their commands, and no other word decodes to any (30_encoding.md R57). -/
def Obligations.CommandTableDecodes : Prop :=
  ∀ (w : Byte) (i : Instr), decode w = .command i ↔
    (w, i) ∈ ([(0x01#8, .bufClear), (0x02#8, .bufPush), (0x03#8, .bufRdbyte), (0x04#8, .bufWrbyte),
      (0x05#8, .bufGetbit), (0x06#8, .bufSetbit), (0x10#8, .crcInit), (0x11#8, .crcCompute),
      (0x12#8, .crcVerify), (0x20#8, .hamInit), (0x21#8, .hamCompute), (0x22#8, .hamVerify)] :
      List (Byte × Instr))

/-- A word decodes to a command exactly when it is that command's encoding (30_encoding.md R55, 30_encoding.md R57, 30_encoding.md R59). -/
def Obligations.DecodeAndEncodeAgree : Prop :=
  ∀ (w : Byte) (i : Instr), decode w = .command i ↔ w = encode i

/-- A step whose next host action writes a command word to CMD is exec of the decoded command (10_state.md R14, 30_encoding.md R55). -/
def Obligations.StepRunsDecodedCommand : Prop :=
  (∀ (s : State) (w : Byte) (i : Instr) (rest : List HostAction),
      decode w = .command i → s.pending = .writeReg 0 w.toNat :: rest →
      step s = exec i (s.setPending rest)) ∧
  (∀ (s : State) (nbits w : Nat) (i : Instr),
      decodeTableWord nbits w = some i → step (s.withFetchWord nbits w) = exec i s)

/-- Each of the other 244 words sets ERR = IllegalCommand, RESULT = 0 and changes nothing else (R58, R147). -/
def Obligations.IllegalWordsChangeOnlyStatus : Prop :=
  ((List.range 256).filter (fun v => decide (BitVec.ofNat 8 v ∉ commandWords))).length = 244 ∧
  ∀ (s : State) (w : Byte) (rest : List HostAction),
    w ∉ commandWords → s.pending = .writeReg 0 w.toNat :: rest → s.status.halted = false →
    step s = .next { s with pending := rest, status := errStatus .illegalCommand }

/-- With no host action pending a step changes nothing (20_memory.md R43, notes/assumptions/4.md). -/
def Obligations.IdleStepChangesNothing : Prop :=
  ∀ s : State, s.pending = [] → step s = .next s

/-- Reset gives every piece of state the value of the reset table and keeps the instance (R21). -/
def Obligations.ResetLeavesSpecValues : Prop :=
  (∀ (s : State) (rest : List HostAction), s.pending = .reset :: rest →
      ∃ t, step s = .next t ∧ t.inst = s.inst ∧ t.len = 0 ∧ t.buf = [] ∧ t.idx = 0 ∧
        t.data = 0#8 ∧ t.rdata = 0#8 ∧ t.status.result = false ∧ t.status.err = .noError ∧
        t.status.halted = false ∧ t.readReg 0 = 0) ∧
  (∀ c : Instance, (State.resetOf c).inst = c ∧ (State.resetOf c).len = 0 ∧
      (State.resetOf c).buf = [] ∧ (State.resetOf c).idx = 0 ∧ (State.resetOf c).data = 0#8 ∧
      (State.resetOf c).rdata = 0#8 ∧ (State.resetOf c).status = okStatus false)

/-- A host read of each register number answers that register, 0 for CMD and for unassigned numbers (10_state.md R23, 10_state.md R12, notes/assumptions/5.md). -/
def Obligations.HostReadsRegisterFile : Prop :=
  ∀ (s : State) (n : Nat) (rest : List HostAction), s.pending = .readReg n :: rest →
    step s = .next { s with pending := rest, hostRead :=
      if n = 1 then s.status.word.toNat else if n = 2 then s.idx else if n = 3 then s.data.toNat
      else if n = 4 then s.rdata.toNat else if n = 5 then s.buf.length
      else if n = 8 then s.inst.codebits else if n = 9 then s.inst.n
      else if n = 10 then s.inst.databits else if n = 11 then s.inst.paddingbits
      else if n = 12 then s.inst.wordbytes else 0 }

/-- A host write sets IDX or DATA and is ignored by read-only and unassigned registers (10_state.md R23, 10_state.md R12, 10_state.md R14). -/
def Obligations.HostWritesOnlyOperandRegisters : Prop :=
  ∀ (s : State) (n v : Nat) (rest : List HostAction), s.pending = .writeReg n v :: rest →
    (n = 2 → Instance.fitsIdx s.inst v = true → step s = .next { s with pending := rest, idx := v }) ∧
    (n = 3 → v < 256 → step s = .next { s with pending := rest, data := BitVec.ofNat 8 v }) ∧
    (n ≠ 0 → n ≠ 2 → n ≠ 3 → step s = .next { s with pending := rest }) ∧
    ((n = 2 ∧ Instance.fitsIdx s.inst v = false) ∨ ((n = 0 ∨ n = 3) ∧ 256 ≤ v) →
      step s = .refused .valueTooWide)

/-- STATUS as read: RESULT in bit 0, the ERR code in bits 3:1, HALTED in bit 4, zeros above (10_state.md R15, 60_exceptions.md R141). -/
def Obligations.StatusWordLayout : Prop :=
  (∀ st : Status, st.word.getLsbD 0 = st.result ∧ st.word.extractLsb' 1 3 = st.err.code ∧
      st.word.getLsbD 4 = st.halted ∧ st.word.extractLsb' 5 3 = 0#3) ∧
  ErrKind.code .noError = 0#3 ∧ ErrKind.code .invalidState = 1#3 ∧
  ErrKind.code .internalInconsistency = 2#3 ∧ ErrKind.code .illegalCommand = 3#3 ∧
  ErrKind.code .indexOutOfRange = 4#3

/-- BUF.CLEAR empties the buffer and changes nothing else but STATUS (R70). -/
def Obligations.ClearEmptiesBuffer : Prop :=
  ∀ s : State, s.status.halted = false →
    exec .bufClear s = .next { s with mem := [], status := okStatus false }

/-- BUF.PUSH appends DATA; a push beyond a finite BUF_CAP is refused (R71). -/
def Obligations.PushAppendsData : Prop :=
  ∀ s : State, s.status.halted = false → s.mem.wf →
    (Instance.capOk s.inst (s.len + 1) = true → ∃ t, exec .bufPush s = .next t ∧ RegistersKept s t ∧
      t.status = okStatus false ∧ t.buf = s.buf ++ [s.data] ∧ t.len = s.len + 1 ∧
      t.mem.read s.len = some s.data ∧ ∀ a, a ≠ s.len → t.mem.read a = s.mem.read a) ∧
    (Instance.capOk s.inst (s.len + 1) = false → exec .bufPush s = .refused .overCapacity)

/-- BUF.RDBYTE puts the byte at IDX in RDATA, or raises IndexOutOfRange (R72). -/
def Obligations.ReadByteReturnsAddressedByte : Prop :=
  ∀ s : State, s.status.halted = false → s.mem.wf →
    (s.idx < s.len → ∃ b, s.buf[s.idx]? = some b ∧
      exec .bufRdbyte s = .next { s with rdata := b, status := okStatus false }) ∧
    (s.len ≤ s.idx →
      exec .bufRdbyte s = .next { s with status := errStatus .indexOutOfRange })

/-- BUF.WRBYTE replaces the byte at IDX by DATA and no other, or raises IndexOutOfRange (R73). -/
def Obligations.WriteByteReplacesOneByte : Prop :=
  ∀ s : State, s.status.halted = false → s.mem.wf →
    (s.idx < s.len → ∃ t, exec .bufWrbyte s = .next t ∧ RegistersKept s t ∧
      t.status = okStatus false ∧ t.len = s.len ∧ t.mem.read s.idx = some s.data ∧
      ∀ a, a ≠ s.idx → t.mem.read a = s.mem.read a) ∧
    (s.len ≤ s.idx →
      exec .bufWrbyte s = .next { s with status := errStatus .indexOutOfRange })

/-- BUF.GETBIT puts bit IDX, or 0 beyond the end, in RDATA (R74). -/
def Obligations.GetBitReadsZeroBeyondEnd : Prop :=
  ∀ s : State, s.status.halted = false →
    (∀ b, s.buf[s.idx / 8]? = some b → exec .bufGetbit s = .next { s with
      rdata := if b.getLsbD (s.idx % 8) then 0x01#8 else 0x00#8, status := okStatus false }) ∧
    (s.len ≤ s.idx / 8 →
      exec .bufGetbit s = .next { s with rdata := 0x00#8, status := okStatus false })

/-- BUF.SETBIT writes bit IDX to DATA[0] and no other bit, or raises IndexOutOfRange (R75). -/
def Obligations.SetBitWritesOneBit : Prop :=
  ∀ s : State, s.status.halted = false → s.mem.wf →
    (s.idx / 8 < s.len → ∃ t, exec .bufSetbit s = .next t ∧ RegistersKept s t ∧
      t.status = okStatus false ∧ t.len = s.len ∧
      (∀ j, getBitOrZero t.buf j = if j = s.idx then s.data.getLsbD 0 else getBitOrZero s.buf j) ∧
      ∀ a, a ≠ s.idx / 8 → t.mem.read a = s.mem.read a) ∧
    (s.len ≤ s.idx / 8 →
      exec .bufSetbit s = .next { s with status := errStatus .indexOutOfRange })

/-- CRC.INIT appends two zero bytes and changes nothing else but STATUS (R94). -/
def Obligations.CrcInitAppendsTwoZeroBytes : Prop :=
  ∀ s : State, s.status.halted = false → s.mem.wf → Instance.capOk s.inst (s.len + 2) = true →
    ∃ t, exec .crcInit s = .next t ∧ RegistersKept s t ∧ t.status = okStatus false ∧
      t.buf = s.buf ++ [0#8, 0#8] ∧ t.len = s.len + 2 ∧
      ∀ a, a ≠ s.len → a ≠ s.len + 1 → t.mem.read a = s.mem.read a

/-- CRC.COMPUTE overwrites the last two bytes with DoCompute, high byte first; InvalidState below 2 bytes (R95). -/
def Obligations.CrcComputeStoresChecksumBigEndian : Prop :=
  ∀ s : State, s.status.halted = false → s.mem.wf →
    (2 ≤ s.len → ∃ t, exec .crcCompute s = .next t ∧ RegistersKept s t ∧
      t.status = okStatus false ∧ t.len = s.len ∧
      t.mem.read (s.len - 2) = some (BitVec.ofNat 8 ((doCompute s.buf).toNat / 256)) ∧
      t.mem.read (s.len - 1) = some (BitVec.ofNat 8 ((doCompute s.buf).toNat % 256)) ∧
      ∀ a, a ≠ s.len - 2 → a ≠ s.len - 1 → t.mem.read a = s.mem.read a) ∧
    (s.len < 2 → exec .crcCompute s = .next { s with status := errStatus .invalidState })

/-- CRC.VERIFY strips two bytes and reports whether DoCompute is 0; below 2 bytes it reports false (R96). -/
def Obligations.CrcVerifyStripsAndReports : Prop :=
  ∀ s : State, s.status.halted = false → s.mem.wf →
    (2 ≤ s.len → ∃ t, exec .crcVerify s = .next t ∧ RegistersKept s t ∧
      t.status = okStatus (decide (doCompute s.buf = 0#16)) ∧ t.buf = s.buf.take (s.len - 2) ∧
      t.len = s.len - 2 ∧ ∀ a, a < s.len - 2 → t.mem.read a = s.mem.read a) ∧
    (s.len < 2 → exec .crcVerify s = .next { s with status := okStatus false })

/-- BitRev8 puts bit 7 - t at bit t, and is its own inverse (R91). -/
def Obligations.BitRev8MirrorsTheByte : Prop :=
  ∀ b : Byte, (∀ t, t < 8 → (bitRev8 b).getLsbD t = b.getLsbD (7 - t)) ∧ bitRev8 (bitRev8 b) = b

/-- CrcStep doubles the register, adds the input bit, masks to 16 bits, and XORs 0x1021 when bit 15 was set (R92). -/
def Obligations.CrcStepShiftsWithFeedback : Prop :=
  ∀ (reg : Word16) (inBit : Bool), (crcStep reg inBit).toNat =
    if 2 ^ 15 ≤ reg.toNat then ((2 * reg.toNat + inBit.toNat) % 2 ^ 16) ^^^ 0x1021
    else (2 * reg.toNat + inBit.toNat) % 2 ^ 16

/-- DoCompute is the inverted register after all bits, each byte most-significant bit first (R93). -/
def Obligations.DoComputeConsumesMostSignificantBitFirst : Prop :=
  ∀ B : List Byte, doCompute B = ~~~((msbFirstBits B).foldl crcStep 0x84CF#16)

/-- DoCompute over a frame just computed on a zero placeholder is 0 (42_crc16.md R99). -/
def Obligations.CrcZeroSumAfterCompute : Prop :=
  ∀ P : List Byte, doCompute (crcFrame P) = 0#16

/-- CRC.INIT; CRC.COMPUTE; CRC.VERIFY completes, reports true and gives the payload back (42_crc16.md R99, 30_encoding.md R54). -/
def Obligations.CrcRoundTripRestoresPayload : Prop :=
  ∀ s : State, s.status.halted = false → Instance.capOk s.inst (s.len + 2) = true →
    ∃ t₁ t₂ t₃, exec .crcInit s = .next t₁ ∧ exec .crcCompute t₁ = .next t₂ ∧
      t₂.buf = crcFrame s.buf ∧ exec .crcVerify t₂ = .next t₃ ∧
      t₃.status = okStatus true ∧ t₃.buf = s.buf ∧ RegistersKept s t₃

/-- CRC.VERIFY reports false on a frame with any one bit flipped (42_crc16.md R99, 42_crc16.md R97). -/
def Obligations.CrcDetectsEverySingleBitFlip : Prop :=
  ∀ (s : State) (P : List Byte) (j : Nat), s.status.halted = false →
    j < 8 * (P.length + 2) → s.buf = flipBit (crcFrame P) j →
    ∃ t, exec .crcVerify s = .next t ∧ t.status = okStatus false ∧ t.buf = s.buf.take P.length

/-- The stored checksum equals the direct-form CRC-16 of the payload alone, started at 0xFFFF and inverted (42_crc16.md R100). -/
def Obligations.ChecksumEqualsDirectFormCrc : Prop :=
  ∀ P : List Byte, doCompute (P ++ zeros 2) = ~~~((msbFirstBits P).foldl directStep 0xFFFF#16)

/-- Construction succeeds exactly for codebits = 2^N - 1 with 2 <= N <= 32, with the derived sizes (R110). -/
def Obligations.ConstructAcceptsExactlyLegalCodebits : Prop :=
  ∀ (codebits : Nat) (bufCap idxw : Option Nat) (c : Instance),
    construct codebits bufCap idxw = some c ↔
    ∃ N, 2 ≤ N ∧ N ≤ 32 ∧ codebits = 2 ^ N - 1 ∧
      c = { codebits := codebits, n := N, databits := codebits - N,
            paddingbits := (8 - codebits % 8) % 8,
            wordbytes := (codebits + (8 - codebits % 8) % 8) / 8,
            bufCap := bufCap, idxw := idxw }

/-- An instance is well formed exactly when construction from its own CODEBITS gives it (43_hamming.md R110, 10_state.md R11). -/
def Obligations.ConstructedInstancesAreExactlyWellFormed : Prop :=
  ∀ c : Instance, c.wf ↔ construct c.codebits c.bufCap c.idxw = some c

/-- N = 2 has 5 padding bits and 1 byte per word; N >= 3 has 1 padding bit and 2^(N-3) bytes per word (10_state.md R11, 43_hamming.md R111). -/
def Obligations.DerivedSizesOfLegalInstances : Prop :=
  ∀ c : Instance, c.wf →
    (c.n = 2 → c.paddingbits = 5 ∧ c.wordbytes = 1) ∧
    (3 ≤ c.n → c.paddingbits = 1 ∧ c.wordbytes = 2 ^ (c.n - 3)) ∧
    1 ≤ c.databits ∧ c.databits + c.n = c.codebits ∧ 8 * c.wordbytes = c.codebits + c.paddingbits

/-- Parity(B, w, p) is the XOR of the covered positions, and reads no parity position and no padding bit (R112). -/
def Obligations.ParityIsXorOfCoveredDataPositions : Prop :=
  ∀ (c : Instance) (B : List Byte) (w k : Nat), c.wf → k < c.n →
    parity c B w (2 ^ k) = coveredParity c B w (2 ^ k) ∧
    ∀ C : List Byte, (∀ pos, isDataPos c pos → wordBit c B w pos = wordBit c C w pos) →
      parity c B w (2 ^ k) = parity c C w (2 ^ k)

/-- HAM.INIT puts payload bit t at data position t mod DATABITS of word t div DATABITS, zeros elsewhere (R115). -/
def Obligations.HamInitSpreadsPayloadBits : Prop :=
  ∀ s : State, s.inst.wf → s.status.halted = false → Instance.bitsFit s.inst s.len = true →
    Instance.bitsFit s.inst (encodedLen s.inst s.len) = true →
    Instance.capOk s.inst (encodedLen s.inst s.len) = true →
    ∃ t, exec .hamInit s = .next t ∧ RegistersKept s t ∧ t.status = okStatus false ∧
      t.len = encodedLen s.inst s.len ∧
      ∀ w pos, w < ceilDiv (8 * s.len) s.inst.databits → 1 ≤ pos → pos ≤ 8 * s.inst.wordbytes →
        wordBit s.inst t.buf w pos =
          if pos ≤ s.inst.codebits ∧ isPow2 pos = false then
            getBitOrZero s.buf (w * s.inst.databits + dataRank pos)
          else false

/-- HAM.COMPUTE stores each word's parity and changes no other bit; InvalidState on a ragged length; idempotent (R116). -/
def Obligations.HamComputeStoresParityOnly : Prop :=
  ∀ s : State, s.inst.wf → s.status.halted = false →
    (s.len % s.inst.wordbytes = 0 → Instance.bitsFit s.inst s.len = true →
      ∃ t, exec .hamCompute s = .next t ∧ RegistersKept s t ∧ t.status = okStatus false ∧
        t.len = s.len ∧
        (∀ w k, w < s.len / s.inst.wordbytes → k < s.inst.n →
          wordBit s.inst t.buf w (2 ^ k) = coveredParity s.inst s.buf w (2 ^ k)) ∧
        (∀ j, (∀ w k, w < s.len / s.inst.wordbytes → k < s.inst.n →
            j ≠ wordBase s.inst w + 2 ^ k - 1) → getBitOrZero t.buf j = getBitOrZero s.buf j) ∧
        exec .hamCompute t = .next t) ∧
    (s.len % s.inst.wordbytes ≠ 0 →
      exec .hamCompute s = .next { s with status := errStatus .invalidState })

/-- ERRBIT has bit k = NEWPAR[k] xor OLDPAR[k], and equals the XOR of the 1-based positions of the one bits (R118). -/
def Obligations.SyndromeIsXorOfOnePositions : Prop :=
  ∀ (c : Instance) (B : List Byte) (w : Nat), c.wf →
    (∀ k, (syndrome c B w).testBit k =
      (decide (k < c.n) && (parity c B w (2 ^ k) ^^ wordBit c B w (2 ^ k)))) ∧
    syndrome c B w = positionXor c B w

/-- For a constructed instance no syndrome exceeds CODEBITS, so HAM.VERIFY never raises InternalInconsistency (R121). -/
def Obligations.InternalInconsistencyNeverFires : Prop :=
  ∀ s : State, s.inst.wf →
    (∀ (B : List Byte) (w : Nat), syndrome s.inst B w ≤ s.inst.codebits) ∧
    (s.status.halted = false → ∀ t, exec .hamVerify s = .next t →
      t.status.err ≠ .internalInconsistency ∧ t.status.halted = false)

/-- HAM.VERIFY inverts, per word, the bit the syndrome names and extracts the data bits; it always reports true (R117, R119, R122). -/
def Obligations.HamVerifyCorrectsAndExtracts : Prop :=
  ∀ s : State, s.inst.wf → s.status.halted = false →
    (s.len % s.inst.wordbytes = 0 → Instance.bitsFit s.inst s.len = true →
      ∃ t, exec .hamVerify s = .next t ∧ RegistersKept s t ∧ t.status = okStatus true ∧
        t.len = ceilDiv (s.len / s.inst.wordbytes * s.inst.databits) 8 ∧
        (∀ w pos, w < s.len / s.inst.wordbytes → isDataPos s.inst pos →
          getBitOrZero t.buf (w * s.inst.databits + dataRank pos) =
            (wordBit s.inst s.buf w pos ^^ decide (pos = positionXor s.inst s.buf w))) ∧
        (∀ j, s.len / s.inst.wordbytes * s.inst.databits ≤ j → getBitOrZero t.buf j = false)) ∧
    (s.len % s.inst.wordbytes ≠ 0 →
      exec .hamVerify s = .next { s with status := errStatus .invalidState })

/-- Inverting the bit at position pos of a word XORs pos into that word's syndrome and leaves the others alone (43_hamming.md R118, 43_hamming.md R124). -/
def Obligations.FlippedBitShiftsSyndromeByItsPosition : Prop :=
  ∀ (c : Instance) (B : List Byte) (w pos : Nat), c.wf → 1 ≤ pos → pos ≤ 8 * c.wordbytes →
    (wordBase c w + (pos - 1)) / 8 < B.length →
    syndrome c (flipBit B (wordBase c w + (pos - 1))) w =
      (if pos ≤ c.codebits then syndrome c B w ^^^ pos else syndrome c B w) ∧
    ∀ v, v ≠ w → syndrome c (flipBit B (wordBase c w + (pos - 1))) v = syndrome c B v

/-- After HAM.COMPUTE every word has syndrome 0 (43_hamming.md R126). -/
def Obligations.HamComputeLeavesCodeWords : Prop :=
  ∀ s : State, s.inst.wf → s.status.halted = false → s.len % s.inst.wordbytes = 0 →
    Instance.bitsFit s.inst s.len = true →
    ∃ t, exec .hamCompute s = .next t ∧
      ∀ w, w < s.len / s.inst.wordbytes → syndrome t.inst t.buf w = 0

/-- HAM.VERIFY extracts the same payload from an encoded buffer with any one bit inverted (43_hamming.md R126, 43_hamming.md R123). -/
def Obligations.HamCorrectsEverySingleBitFlip : Prop :=
  ∀ (s : State) (j : Nat), s.inst.wf → s.status.halted = false →
    s.len % s.inst.wordbytes = 0 → Instance.bitsFit s.inst s.len = true →
    (∀ w, w < s.len / s.inst.wordbytes → syndrome s.inst s.buf w = 0) → j < 8 * s.len →
    (∃ t u, exec .hamVerify s = .next t ∧ exec .hamVerify (s.setBuf (flipBit s.buf j)) = .next u ∧
      u.buf = t.buf ∧ u.status = t.status) ∧
    (j % (8 * s.inst.wordbytes) < s.inst.codebits →
      syndrome s.inst (flipBit s.buf j) (j / (8 * s.inst.wordbytes)) =
        j % (8 * s.inst.wordbytes) + 1)

/-- HAM.INIT; HAM.COMPUTE; HAM.VERIFY completes, reports true and gives the payload followed by zero bytes (43_hamming.md R126, 43_hamming.md R120). -/
def Obligations.HamRoundTripRestoresPayload : Prop :=
  ∀ s : State, s.inst.wf → s.status.halted = false → Instance.bitsFit s.inst s.len = true →
    Instance.bitsFit s.inst (encodedLen s.inst s.len) = true →
    Instance.capOk s.inst (encodedLen s.inst s.len) = true →
    ∃ t₁ t₂ t₃, exec .hamInit s = .next t₁ ∧ exec .hamCompute t₁ = .next t₂ ∧
      exec .hamVerify t₂ = .next t₃ ∧ t₃.status = okStatus true ∧ RegistersKept s t₃ ∧
      t₃.buf = s.buf ++
        zeros (ceilDiv (initWords s.inst s.len * s.inst.databits) 8 - s.len)

/-- Should the inconsistency branch be taken, ERR = 2, RESULT = 0, HALTED = 1 and the registers stay (60_exceptions.md R146, 60_exceptions.md R150). -/
def Obligations.InternalInconsistencyHaltsAndFreesBuffer : Prop :=
  ∀ s : State, s.status.halted = false → s.len % s.inst.wordbytes = 0 →
    Instance.bitsFit s.inst s.len = true → hamVerifyBuf s.inst s.buf = none →
    ∃ t, exec .hamVerify s = .next t ∧
      t.status = { result := false, err := .internalInconsistency, halted := true } ∧
      t.inst = s.inst ∧ t.idx = s.idx ∧ t.data = s.data ∧ t.rdata = s.rdata

/-- No command writes IDX, DATA or the configuration; only BUF.RDBYTE and BUF.GETBIT write RDATA (10_state.md R14, 10_state.md R11, 10_state.md R23, 42_crc16.md, opening). -/
def Obligations.CommandsKeepOperandRegisters : Prop :=
  ∀ (i : Instr) (s t : State), exec i s = .next t →
    t.idx = s.idx ∧ t.data = s.data ∧ t.inst = s.inst ∧ t.pending = s.pending ∧
    t.hostRead = s.hostRead ∧ (i ≠ .bufRdbyte → i ≠ .bufGetbit → t.rdata = s.rdata)

/-- InvalidState and IndexOutOfRange are raised in exactly the stated places, changing only STATUS (R143, R148). -/
def Obligations.ErrorsAreRaisedExactlyWhereStated : Prop :=
  ∀ (i : Instr) (s : State), s.status.halted = false → s.mem.wf →
    ((((i = .hamCompute ∨ i = .hamVerify) ∧ s.len % s.inst.wordbytes ≠ 0) ∨
        (i = .crcCompute ∧ s.len < 2)) →
      exec i s = .next { s with status := errStatus .invalidState }) ∧
    ((((i = .bufRdbyte ∨ i = .bufWrbyte) ∧ s.len ≤ s.idx) ∨
        (i = .bufSetbit ∧ s.len ≤ s.idx / 8)) →
      exec i s = .next { s with status := errStatus .indexOutOfRange }) ∧
    ∀ t, exec i s = .next t →
      (t.status.err = .invalidState →
        ((i = .hamCompute ∨ i = .hamVerify) ∧ s.len % s.inst.wordbytes ≠ 0) ∨
        (i = .crcCompute ∧ s.len < 2)) ∧
      (t.status.err = .indexOutOfRange →
        ((i = .bufRdbyte ∨ i = .bufWrbyte) ∧ s.len ≤ s.idx) ∨
        (i = .bufSetbit ∧ s.len ≤ s.idx / 8))

/-- A command that ends with a non-fatal error leaves everything but STATUS as it was (60_exceptions.md R150, 60_exceptions.md R149). -/
def Obligations.FailingCommandsArePrecise : Prop :=
  ∀ (i : Instr) (s t : State), s.status.halted = false → exec i s = .next t →
    (t.status.err ≠ .noError → t.status.err ≠ .internalInconsistency →
      t = { s with status := errStatus t.status.err }) ∧
    (t.status.err = .internalInconsistency → t.status.result = false ∧ t.status.halted = true) ∧
    t.status.err ≠ .illegalCommand

/-- RESULT is 1 only after CRC.VERIFY or HAM.VERIFY, and never beside an error (10_state.md R15, 10_state.md R19, 60_exceptions.md R151). -/
def Obligations.ResultIsSetOnlyByVerify : Prop :=
  ∀ (i : Instr) (s t : State), s.status.halted = false → exec i s = .next t →
    t.status.result = true → (i = .crcVerify ∨ i = .hamVerify) ∧ t.status.err = .noError

/-- LEN changes only by the resizing commands, by the stated amounts (20_memory.md R36, 41_codec_contract.md R85). -/
def Obligations.LengthChangesOnlyAsStated : Prop :=
  ∀ (i : Instr) (s t : State), s.inst.wf → s.status.halted = false → exec i s = .next t →
    t.status.err = .noError →
    t.len =
      if i = .bufClear then 0
      else if i = .bufPush then s.len + 1
      else if i = .crcInit then s.len + 2
      else if i = .crcVerify ∧ 2 ≤ s.len then s.len - 2
      else if i = .hamInit then ceilDiv (8 * s.len) s.inst.databits * s.inst.wordbytes
      else if i = .hamVerify then ceilDiv (s.len / s.inst.wordbytes * s.inst.databits) 8
      else s.len

/-- A codec command's buffer and STATUS depend only on the buffer and the configuration (41_codec_contract.md R84). -/
def Obligations.CodecCommandsArePure : Prop :=
  ∀ (i : Instr) (s s' t : State),
    i ∈ [Instr.crcInit, .crcCompute, .crcVerify, .hamInit, .hamCompute, .hamVerify] →
    s.inst.wf → s'.inst = s.inst → s'.mem = s.mem → s.status.halted = false →
    s'.status.halted = false → exec i s = .next t →
    ∃ t', exec i s' = .next t' ∧ t'.mem = t.mem ∧ t'.status = t.status

/-- While HALTED no command word changes anything, reads still answer, and only reset clears HALTED (60_exceptions.md R152, 70_reset_and_hazards.md R160). -/
def Obligations.HaltedFreezesUntilReset : Prop :=
  ∀ s : State, s.status.halted = true →
    (∀ i, exec i s = .next s) ∧
    (∀ (w : Byte) (rest : List HostAction), s.pending = .writeReg 0 w.toNat :: rest →
      step s = .next { s with pending := rest }) ∧
    (∀ (n : Nat) (rest : List HostAction), s.pending = .readReg n :: rest →
      ∃ t, step s = .next t ∧ t.hostRead = s.readReg n ∧ t.status = s.status) ∧
    (∀ t, step s = .next t → (∀ rest, s.pending ≠ .reset :: rest) → t.status = s.status) ∧
    (∀ rest, s.pending = .reset :: rest → ∃ t, step s = .next t ∧ t.status.halted = false)

/-- A host load gives the buffer that BUF.CLEAR and one BUF.PUSH per byte give, and touches no register (40_buffer.md R76, 30_encoding.md R60). -/
def Obligations.HostLoadIsClearThenPushes : Prop :=
  ∀ (s : State) (B : List Byte), Instance.capOk s.inst B.length = true →
    step (s.setPending [.load B]) = .next { s with mem := Memory.ofBytes B, pending := [] } ∧
    (Memory.ofBytes B).bytes = B ∧
    (s.status.halted = false →
      let q : List HostAction := .writeReg 0 0x01 ::
        B.flatMap (fun b => [.writeReg 3 b.toNat, .writeReg 0 0x02])
      ∃ t : State, Host.Core.run Sys2Proof.core q.length (s.setPending q) = .next t ∧
        t.mem = Memory.ofBytes B ∧ t.status = okStatus false ∧ t.rdata = s.rdata ∧ t.idx = s.idx)

/-- The host reads any byte that exists and any bit, 0 beyond the end; a byte beyond the end stops the run (40_buffer.md R76, 20_memory.md R37, 10_state.md R13, notes/assumptions/7.md). -/
def Obligations.HostBufferReads : Prop :=
  ∀ (s : State) (k : Nat) (rest : List HostAction), s.mem.wf →
    (∀ b, s.pending = .readByte k :: rest → s.buf[k]? = some b →
      step s = .next { s with pending := rest, hostRead := b.toNat }) ∧
    (s.pending = .readByte k :: rest → s.len ≤ k → step s = .fault .noSuchByte) ∧
    (s.pending = .readBit k :: rest →
      step s = .next { s with pending := rest, hostRead := (getBitOrZero s.buf k).toNat })

/-- With a finite BUF_CAP a command or load that would exceed it is refused, never truncated (20_memory.md R41, notes/assumptions/2.md). -/
def Obligations.CapacityRefusals : Prop :=
  ∀ s : State, s.status.halted = false →
    (Instance.capOk s.inst (s.len + 1) = false → exec .bufPush s = .refused .overCapacity) ∧
    (Instance.capOk s.inst (s.len + 2) = false → exec .crcInit s = .refused .overCapacity) ∧
    (Instance.bitsFit s.inst s.len = true →
      Instance.bitsFit s.inst (encodedLen s.inst s.len) = true →
      Instance.capOk s.inst (encodedLen s.inst s.len) = false →
      exec .hamInit s = .refused .overCapacity) ∧
    (∀ B rest, s.pending = .load B :: rest → Instance.capOk s.inst B.length = false →
      step s = .refused .overCapacity) ∧
    (s.inst.wf → Instance.capOk s.inst s.len = true → ∀ i t, exec i s = .next t →
      Instance.capOk t.inst t.len = true)

/-- With a finite IDXW the Hamming commands are refused when a buffer's bit indices do not fit (93_implementation_defined.md U5, notes/assumptions/3.md). -/
def Obligations.IndexWidthRefusals : Prop :=
  ∀ s : State, s.status.halted = false →
    (Instance.bitsFit s.inst s.len = false ∨
        Instance.bitsFit s.inst (encodedLen s.inst s.len) = false →
      exec .hamInit s = .refused .indexTooWide) ∧
    (s.len % s.inst.wordbytes = 0 → Instance.bitsFit s.inst s.len = false →
      exec .hamCompute s = .refused .indexTooWide ∧ exec .hamVerify s = .refused .indexTooWide)

/-- Every command answers a next state when BUF_CAP and IDXW are unbounded, and never faults (60_exceptions.md R150, 70_reset_and_hazards.md R170, 92_eei_decisions.md D6, D7). -/
def Obligations.EveryCommandEnds : Prop :=
  ∀ (i : Instr) (s : State),
    (∀ f, exec i s ≠ .fault f) ∧
    (∀ r, exec i s = .refused r → r = .overCapacity ∨ r = .indexTooWide) ∧
    (s.inst.bufCap = none → s.inst.idxw = none → ∃ t, exec i s = .next t)

/-- The invariant holds at reset of every constructed instance (10_state.md R21, 43_hamming.md R110). -/
def Obligations.InvariantHoldsAtReset : Prop :=
  (∀ c : Instance, c.wf → (State.resetOf c).Inv) ∧ State.reset.Inv

/-- Every step keeps the invariant: legal configuration, canonical buffer within capacity, never halted (43_hamming.md R121, 20_memory.md R37, 20_memory.md R41, 60_exceptions.md R152). -/
def Obligations.StepKeepsInvariant : Prop :=
  ∀ s t : State, s.Inv → step s = .next t → t.Inv

/-- Every step of every instance keeps STATUS coherent: HALTED exactly with InternalInconsistency, no RESULT beside an error (60_exceptions.md R150, 60_exceptions.md R152, 10_state.md R15). -/
def Obligations.StepKeepsStatusCoherent : Prop :=
  ∀ s t : State, s.StatusCoherent → step s = .next t → t.StatusCoherent

/-- HALTED is 0 in every state a constructed instance reaches, whatever the host does (60_exceptions.md R152, 43_hamming.md R121). -/
def Obligations.ReachableStatesAreNeverHalted : Prop :=
  ∀ (c : Instance) (s : State), c.wf → Reachable c s →
    s.status.halted = false ∧ s.inst = c ∧ s.mem.wf

/-- Two flipped bits of a code word make HAM.VERIFY invert the bit at the XOR of their positions and report true (43_hamming.md R126, 43_hamming.md R124). -/
def Obligations.HamDoubleFlipMiscorrectsAtXor : Prop :=
  ∀ (s : State) (w p q : Nat), s.inst.wf → s.status.halted = false →
    s.len % s.inst.wordbytes = 0 → Instance.bitsFit s.inst s.len = true →
    w < s.len / s.inst.wordbytes → IsCodeWord s.inst s.buf w →
    1 ≤ p → p ≤ s.inst.codebits → 1 ≤ q → q ≤ s.inst.codebits → p ≠ q →
    syndrome s.inst (flipPositions s.inst s.buf w p q) w = p ^^^ q ∧
    1 ≤ p ^^^ q ∧ p ^^^ q ≤ s.inst.codebits ∧ p ^^^ q ≠ p ∧ p ^^^ q ≠ q ∧
    ∃ t u, exec .hamVerify s = .next t ∧
      exec .hamVerify (s.setBuf (flipPositions s.inst s.buf w p q)) = .next u ∧
      u.status = okStatus true ∧ RegistersKept s u ∧ u.len = t.len ∧
      (∀ v pos, v < s.len / s.inst.wordbytes → isDataPos s.inst pos →
        getBitOrZero u.buf (v * s.inst.databits + dataRank pos) =
          (getBitOrZero t.buf (v * s.inst.databits + dataRank pos) ^^
            decide (v = w ∧ (pos = p ∨ pos = q ∨ pos = p ^^^ q)))) ∧
      (∀ j, s.len / s.inst.wordbytes * s.inst.databits ≤ j →
        getBitOrZero u.buf j = getBitOrZero t.buf j)
end

