-- ==== Sys2Proof/Laws/Bits.lean ====
section
/-! SUPPORT. What GetBitOrZero, SetBit and FlipBit do to a byte vector (20_memory.md R33 to R35), and IsPow2. -/

namespace Sys2Proof.Machine

@[simp] theorem zeros_length (k : Nat) : (zeros k).length = k := by simp [zeros]

theorem getBitOrZero_zeros (k i : Nat) : getBitOrZero (zeros k) i = false := by
  unfold getBitOrZero zeros
  rw [List.getElem?_replicate]
  by_cases h : i / 8 < k <;> simp [h]

/-- A bit at or beyond the end reads 0. -/
theorem getBitOrZero_of_le {B : List Byte} {i : Nat} (h : B.length ≤ i / 8) :
    getBitOrZero B i = false := by
  simp [getBitOrZero, List.getElem?_eq_none h]

theorem getBitOrZero_of_lt {B : List Byte} {i : Nat} (h : i / 8 < B.length) :
    getBitOrZero B i = (B[i / 8]).getLsbD (i % 8) := by
  simp [getBitOrZero, List.getElem?_eq_getElem h]

@[simp] theorem setBit_length (B : List Byte) (i : Nat) (v : Bool) :
    (setBit B i v).length = B.length := by simp [setBit]

@[simp] theorem flipBit_length (B : List Byte) (i : Nat) : (flipBit B i).length = B.length := by
  simp [flipBit]

/-- The bits of a byte after one of them is set. -/
theorem byteWithBit_getLsbD (b : Byte) (t u : Nat) (v : Bool) (ht : t < 8) (hu : u < 8) :
    (byteWithBit b t v).getLsbD u = if u = t then v else b.getLsbD u := by
  have key : ∀ (t u : Fin 8), (1#8 <<< t.val).getLsbD u.val = decide (u = t) := by decide
  have h := key ⟨t, ht⟩ ⟨u, hu⟩
  simp only [Fin.mk.injEq] at h
  unfold byteWithBit
  cases v
  · simp only [Bool.false_eq_true, if_false, BitVec.getLsbD_and, BitVec.getLsbD_not, h, hu,
      decide_true, Bool.true_and]
    by_cases e : u = t <;> simp [e]
  · simp only [if_true, BitVec.getLsbD_or, h]
    by_cases e : u = t <;> simp [e]

/-- Two bit indices of one byte differ in their place within it. -/
theorem mod_ne_of_div_eq {i j : Nat} (hd : j / 8 = i / 8) (hn : j ≠ i) : j % 8 ≠ i % 8 := by omega

/-- `SetBit` changes the one bit it names and no other. -/
theorem getBitOrZero_setBit (B : List Byte) (i j : Nat) (v : Bool) (h : i / 8 < B.length) :
    getBitOrZero (setBit B i v) j = if j = i then v else getBitOrZero B j := by
  unfold getBitOrZero setBit
  rw [List.getElem?_modify]
  by_cases hd : i / 8 = j / 8
  · have hj : j / 8 < B.length := by omega
    simp only [List.getElem?_eq_getElem hj, hd, Option.map_eq_map, Option.map_some, if_true]
    rw [byteWithBit_getLsbD _ _ _ _ (Nat.mod_lt _ (by decide)) (Nat.mod_lt _ (by decide))]
    by_cases e : j = i
    · simp [e]
    · have := mod_ne_of_div_eq hd.symm e
      simp [e, this]
  · have e : j ≠ i := by rintro rfl; exact hd rfl
    simp only [hd, e, if_false]
    cases B[j / 8]? <;> rfl

/-- `FlipBit` inverts the one bit it names. -/
theorem getBitOrZero_flipBit (B : List Byte) (i j : Nat) (h : i / 8 < B.length) :
    getBitOrZero (flipBit B i) j = if j = i then !getBitOrZero B i else getBitOrZero B j :=
  getBitOrZero_setBit B i j _ h

/-- Two byte vectors of one length with the same bits are equal. -/
theorem bytes_ext {B C : List Byte} (hl : B.length = C.length)
    (hb : ∀ j, j < 8 * B.length → getBitOrZero B j = getBitOrZero C j) : B = C := by
  apply List.ext_getElem hl
  intro i h₁ h₂
  apply BitVec.eq_of_getLsbD_eq
  intro t ht
  have h := hb (8 * i + t) (by omega)
  have e₁ : (8 * i + t) / 8 = i := by omega
  have e₂ : (8 * i + t) % 8 = t := by omega
  rw [getBitOrZero_of_lt (by omega), getBitOrZero_of_lt (by omega)] at h
  simpa only [e₁, e₂] using h

/-- `IsPow2` holds of the powers of two. -/
theorem isPow2_two_pow (k : Nat) : isPow2 (2 ^ k) = true := by
  simp [isPow2, Nat.one_le_two_pow, Nat.and_two_pow_sub_one_eq_mod]

end Sys2Proof.Machine
end

