-- ==== Sys2Proof/Laws/State.lean ====
section
/-! SUPPORT. One lemma per field per update of State, and the fields of STATUS after each way a command writes it. -/

namespace Sys2Proof.Machine

/-! ### setBuf -/

@[simp] theorem State.setBuf_inst (s : State) (B : List Byte) : (s.setBuf B).inst = s.inst := rfl
@[simp] theorem State.setBuf_mem (s : State) (B : List Byte) : (s.setBuf B).mem = Memory.ofBytes B := rfl
@[simp] theorem State.setBuf_idx (s : State) (B : List Byte) : (s.setBuf B).idx = s.idx := rfl
@[simp] theorem State.setBuf_data (s : State) (B : List Byte) : (s.setBuf B).data = s.data := rfl
@[simp] theorem State.setBuf_rdata (s : State) (B : List Byte) : (s.setBuf B).rdata = s.rdata := rfl
@[simp] theorem State.setBuf_status (s : State) (B : List Byte) : (s.setBuf B).status = s.status := rfl
@[simp] theorem State.setBuf_pending (s : State) (B : List Byte) : (s.setBuf B).pending = s.pending := rfl
@[simp] theorem State.setBuf_hostRead (s : State) (B : List Byte) : (s.setBuf B).hostRead = s.hostRead := rfl
@[simp] theorem State.setBuf_freeCount (s : State) (B : List Byte) : (s.setBuf B).freeCount = s.freeCount := rfl

/-! ### memWrite -/

@[simp] theorem State.memWrite_inst (s : State) (a : Nat) (v : Byte) : (s.memWrite a v).inst = s.inst := rfl
@[simp] theorem State.memWrite_mem (s : State) (a : Nat) (v : Byte) : (s.memWrite a v).mem = s.mem.write a v := rfl
@[simp] theorem State.memWrite_idx (s : State) (a : Nat) (v : Byte) : (s.memWrite a v).idx = s.idx := rfl
@[simp] theorem State.memWrite_data (s : State) (a : Nat) (v : Byte) : (s.memWrite a v).data = s.data := rfl
@[simp] theorem State.memWrite_rdata (s : State) (a : Nat) (v : Byte) : (s.memWrite a v).rdata = s.rdata := rfl
@[simp] theorem State.memWrite_status (s : State) (a : Nat) (v : Byte) : (s.memWrite a v).status = s.status := rfl
@[simp] theorem State.memWrite_pending (s : State) (a : Nat) (v : Byte) : (s.memWrite a v).pending = s.pending := rfl
@[simp] theorem State.memWrite_hostRead (s : State) (a : Nat) (v : Byte) : (s.memWrite a v).hostRead = s.hostRead := rfl
@[simp] theorem State.memWrite_freeCount (s : State) (a : Nat) (v : Byte) : (s.memWrite a v).freeCount = s.freeCount := rfl

/-! ### setIdx -/

@[simp] theorem State.setIdx_inst (s : State) (v : Nat) : (s.setIdx v).inst = s.inst := rfl
@[simp] theorem State.setIdx_mem (s : State) (v : Nat) : (s.setIdx v).mem = s.mem := rfl
@[simp] theorem State.setIdx_idx (s : State) (v : Nat) : (s.setIdx v).idx = v := rfl
@[simp] theorem State.setIdx_data (s : State) (v : Nat) : (s.setIdx v).data = s.data := rfl
@[simp] theorem State.setIdx_rdata (s : State) (v : Nat) : (s.setIdx v).rdata = s.rdata := rfl
@[simp] theorem State.setIdx_status (s : State) (v : Nat) : (s.setIdx v).status = s.status := rfl
@[simp] theorem State.setIdx_pending (s : State) (v : Nat) : (s.setIdx v).pending = s.pending := rfl
@[simp] theorem State.setIdx_hostRead (s : State) (v : Nat) : (s.setIdx v).hostRead = s.hostRead := rfl
@[simp] theorem State.setIdx_freeCount (s : State) (v : Nat) : (s.setIdx v).freeCount = s.freeCount := rfl

/-! ### setData -/

@[simp] theorem State.setData_inst (s : State) (v : Byte) : (s.setData v).inst = s.inst := rfl
@[simp] theorem State.setData_mem (s : State) (v : Byte) : (s.setData v).mem = s.mem := rfl
@[simp] theorem State.setData_idx (s : State) (v : Byte) : (s.setData v).idx = s.idx := rfl
@[simp] theorem State.setData_data (s : State) (v : Byte) : (s.setData v).data = v := rfl
@[simp] theorem State.setData_rdata (s : State) (v : Byte) : (s.setData v).rdata = s.rdata := rfl
@[simp] theorem State.setData_status (s : State) (v : Byte) : (s.setData v).status = s.status := rfl
@[simp] theorem State.setData_pending (s : State) (v : Byte) : (s.setData v).pending = s.pending := rfl
@[simp] theorem State.setData_hostRead (s : State) (v : Byte) : (s.setData v).hostRead = s.hostRead := rfl
@[simp] theorem State.setData_freeCount (s : State) (v : Byte) : (s.setData v).freeCount = s.freeCount := rfl

/-! ### setRdata -/

@[simp] theorem State.setRdata_inst (s : State) (v : Byte) : (s.setRdata v).inst = s.inst := rfl
@[simp] theorem State.setRdata_mem (s : State) (v : Byte) : (s.setRdata v).mem = s.mem := rfl
@[simp] theorem State.setRdata_idx (s : State) (v : Byte) : (s.setRdata v).idx = s.idx := rfl
@[simp] theorem State.setRdata_data (s : State) (v : Byte) : (s.setRdata v).data = s.data := rfl
@[simp] theorem State.setRdata_rdata (s : State) (v : Byte) : (s.setRdata v).rdata = v := rfl
@[simp] theorem State.setRdata_status (s : State) (v : Byte) : (s.setRdata v).status = s.status := rfl
@[simp] theorem State.setRdata_pending (s : State) (v : Byte) : (s.setRdata v).pending = s.pending := rfl
@[simp] theorem State.setRdata_hostRead (s : State) (v : Byte) : (s.setRdata v).hostRead = s.hostRead := rfl
@[simp] theorem State.setRdata_freeCount (s : State) (v : Byte) : (s.setRdata v).freeCount = s.freeCount := rfl

/-! ### setStatus -/

@[simp] theorem State.setStatus_inst (s : State) (st : Status) : (s.setStatus st).inst = s.inst := rfl
@[simp] theorem State.setStatus_mem (s : State) (st : Status) : (s.setStatus st).mem = s.mem := rfl
@[simp] theorem State.setStatus_idx (s : State) (st : Status) : (s.setStatus st).idx = s.idx := rfl
@[simp] theorem State.setStatus_data (s : State) (st : Status) : (s.setStatus st).data = s.data := rfl
@[simp] theorem State.setStatus_rdata (s : State) (st : Status) : (s.setStatus st).rdata = s.rdata := rfl
@[simp] theorem State.setStatus_status (s : State) (st : Status) : (s.setStatus st).status = st := rfl
@[simp] theorem State.setStatus_pending (s : State) (st : Status) : (s.setStatus st).pending = s.pending := rfl
@[simp] theorem State.setStatus_hostRead (s : State) (st : Status) : (s.setStatus st).hostRead = s.hostRead := rfl
@[simp] theorem State.setStatus_freeCount (s : State) (st : Status) : (s.setStatus st).freeCount = s.freeCount := rfl

/-! ### setHostRead -/

@[simp] theorem State.setHostRead_inst (s : State) (v : Nat) : (s.setHostRead v).inst = s.inst := rfl
@[simp] theorem State.setHostRead_mem (s : State) (v : Nat) : (s.setHostRead v).mem = s.mem := rfl
@[simp] theorem State.setHostRead_idx (s : State) (v : Nat) : (s.setHostRead v).idx = s.idx := rfl
@[simp] theorem State.setHostRead_data (s : State) (v : Nat) : (s.setHostRead v).data = s.data := rfl
@[simp] theorem State.setHostRead_rdata (s : State) (v : Nat) : (s.setHostRead v).rdata = s.rdata := rfl
@[simp] theorem State.setHostRead_status (s : State) (v : Nat) : (s.setHostRead v).status = s.status := rfl
@[simp] theorem State.setHostRead_pending (s : State) (v : Nat) : (s.setHostRead v).pending = s.pending := rfl
@[simp] theorem State.setHostRead_hostRead (s : State) (v : Nat) : (s.setHostRead v).hostRead = v := rfl
@[simp] theorem State.setHostRead_freeCount (s : State) (v : Nat) : (s.setHostRead v).freeCount = s.freeCount := rfl

/-! ### setPending -/

@[simp] theorem State.setPending_inst (s : State) (q : List HostAction) : (s.setPending q).inst = s.inst := rfl
@[simp] theorem State.setPending_mem (s : State) (q : List HostAction) : (s.setPending q).mem = s.mem := rfl
@[simp] theorem State.setPending_idx (s : State) (q : List HostAction) : (s.setPending q).idx = s.idx := rfl
@[simp] theorem State.setPending_data (s : State) (q : List HostAction) : (s.setPending q).data = s.data := rfl
@[simp] theorem State.setPending_rdata (s : State) (q : List HostAction) : (s.setPending q).rdata = s.rdata := rfl
@[simp] theorem State.setPending_status (s : State) (q : List HostAction) : (s.setPending q).status = s.status := rfl
@[simp] theorem State.setPending_pending (s : State) (q : List HostAction) : (s.setPending q).pending = q := rfl
@[simp] theorem State.setPending_hostRead (s : State) (q : List HostAction) : (s.setPending q).hostRead = s.hostRead := rfl
@[simp] theorem State.setPending_freeCount (s : State) (q : List HostAction) : (s.setPending q).freeCount = s.freeCount := rfl

/-! ### bumpFree -/

@[simp] theorem State.bumpFree_inst (s : State) : (s.bumpFree).inst = s.inst := rfl
@[simp] theorem State.bumpFree_mem (s : State) : (s.bumpFree).mem = s.mem := rfl
@[simp] theorem State.bumpFree_idx (s : State) : (s.bumpFree).idx = s.idx := rfl
@[simp] theorem State.bumpFree_data (s : State) : (s.bumpFree).data = s.data := rfl
@[simp] theorem State.bumpFree_rdata (s : State) : (s.bumpFree).rdata = s.rdata := rfl
@[simp] theorem State.bumpFree_status (s : State) : (s.bumpFree).status = s.status := rfl
@[simp] theorem State.bumpFree_pending (s : State) : (s.bumpFree).pending = s.pending := rfl
@[simp] theorem State.bumpFree_hostRead (s : State) : (s.bumpFree).hostRead = s.hostRead := rfl
@[simp] theorem State.bumpFree_freeCount (s : State) : (s.bumpFree).freeCount = s.freeCount + 1 := rfl

/-! ### finish -/

@[simp] theorem State.finish_inst (s : State) (r : Bool) : (s.finish r).inst = s.inst := rfl
@[simp] theorem State.finish_mem (s : State) (r : Bool) : (s.finish r).mem = s.mem := rfl
@[simp] theorem State.finish_idx (s : State) (r : Bool) : (s.finish r).idx = s.idx := rfl
@[simp] theorem State.finish_data (s : State) (r : Bool) : (s.finish r).data = s.data := rfl
@[simp] theorem State.finish_rdata (s : State) (r : Bool) : (s.finish r).rdata = s.rdata := rfl
@[simp] theorem State.finish_status (s : State) (r : Bool) : (s.finish r).status = s.status.ended r := rfl
@[simp] theorem State.finish_pending (s : State) (r : Bool) : (s.finish r).pending = s.pending := rfl
@[simp] theorem State.finish_hostRead (s : State) (r : Bool) : (s.finish r).hostRead = s.hostRead := rfl
@[simp] theorem State.finish_freeCount (s : State) (r : Bool) : (s.finish r).freeCount = s.freeCount := rfl

/-! ### raise -/

@[simp] theorem State.raise_inst (s : State) (e : ErrKind) : (s.raise e).inst = s.inst := rfl
@[simp] theorem State.raise_mem (s : State) (e : ErrKind) : (s.raise e).mem = s.mem := rfl
@[simp] theorem State.raise_idx (s : State) (e : ErrKind) : (s.raise e).idx = s.idx := rfl
@[simp] theorem State.raise_data (s : State) (e : ErrKind) : (s.raise e).data = s.data := rfl
@[simp] theorem State.raise_rdata (s : State) (e : ErrKind) : (s.raise e).rdata = s.rdata := rfl
@[simp] theorem State.raise_status (s : State) (e : ErrKind) : (s.raise e).status = s.status.raised e := rfl
@[simp] theorem State.raise_pending (s : State) (e : ErrKind) : (s.raise e).pending = s.pending := rfl
@[simp] theorem State.raise_hostRead (s : State) (e : ErrKind) : (s.raise e).hostRead = s.hostRead := rfl
@[simp] theorem State.raise_freeCount (s : State) (e : ErrKind) : (s.raise e).freeCount = s.freeCount := rfl

/-! ### STATUS -/

@[simp] theorem Status.ended_result (st : Status) (r : Bool) : (st.ended r).result = r := rfl
@[simp] theorem Status.ended_err (st : Status) (r : Bool) : (st.ended r).err = .noError := rfl
@[simp] theorem Status.ended_halted (st : Status) (r : Bool) : (st.ended r).halted = st.halted := rfl
@[simp] theorem Status.raised_result (st : Status) (e : ErrKind) : (st.raised e).result = false := rfl
@[simp] theorem Status.raised_err (st : Status) (e : ErrKind) : (st.raised e).err = e := rfl
theorem Status.raised_halted (st : Status) (e : ErrKind) :
    (st.raised e).halted = (st.halted || decide (e = .internalInconsistency)) := rfl

end Sys2Proof.Machine
end

