-- ==== Sys2Proof/Laws/Memory.lean ====
section
/-! SUPPORT. The buffer as cells: every memory operation keeps the canonical form, and reading by address agrees with the byte vector. -/

namespace Sys2Proof.Machine

@[simp] theorem Memory.bytes_length (m : Memory) : m.bytes.length = m.length := by
  simp [Memory.bytes]

@[simp] theorem Memory.cellsFrom_length (bs : List Byte) : ∀ a, (Memory.cellsFrom a bs).length = bs.length := by
  induction bs with
  | nil => intro a; rfl
  | cons b bs ih => intro a; simp [Memory.cellsFrom, ih]

@[simp] theorem Memory.ofBytes_length (bs : List Byte) : (Memory.ofBytes bs).length = bs.length := by
  simp [Memory.ofBytes]

theorem Memory.cellsFrom_bytes (bs : List Byte) : ∀ a, (Memory.cellsFrom a bs).bytes = bs := by
  induction bs with
  | nil => intro a; rfl
  | cons b bs ih =>
    intro a
    have := ih (a + 1)
    simp only [Memory.bytes] at this
    simp [Memory.cellsFrom, Memory.bytes, this]

/-- The vector a memory was made from. -/
@[simp] theorem Memory.bytes_ofBytes (bs : List Byte) : (Memory.ofBytes bs).bytes = bs :=
  Memory.cellsFrom_bytes bs 0

theorem Memory.cellsFrom_addresses (bs : List Byte) :
    ∀ a, (Memory.cellsFrom a bs).map Prod.fst = List.range' a bs.length := by
  induction bs with
  | nil => intro a; rfl
  | cons b bs ih => intro a; simp [Memory.cellsFrom, ih, List.range'_succ]

/-- A memory made from a byte vector is in canonical form. -/
theorem Memory.ofBytes_wf (bs : List Byte) : (Memory.ofBytes bs).wf := by
  simp [Memory.wf, Memory.ofBytes, Memory.cellsFrom_addresses, List.range_eq_range']

/-- A write keeps the canonical form. -/
theorem Memory.write_wf {m : Memory} (h : m.wf) (a : Nat) (v : Byte) : (m.write a v).wf := by
  have e : (m.write a v).map Prod.fst = m.map Prod.fst := by
    simp only [Memory.write, List.map_map]
    apply List.map_congr_left
    intro c _
    by_cases hc : c.1 = a <;> simp [hc]
  simp only [Memory.wf] at h ⊢
  rw [e, h]
  simp [Memory.write]

@[simp] theorem Memory.write_length (m : Memory) (a : Nat) (v : Byte) :
    (m.write a v).length = m.length := by simp [Memory.write]

/-- In canonical form the addresses rise strictly. -/
theorem Memory.wf_addresses_rise {m : Memory} (h : m.wf) : (m.map Prod.fst).Pairwise (· < ·) := by
  have h' : m.map Prod.fst = List.range m.length := h
  rw [h']
  exact List.pairwise_lt_range

theorem Memory.eq_cellsFrom {m : Memory} :
    ∀ {a : Nat}, m.map Prod.fst = List.range' a m.length → m = Memory.cellsFrom a m.bytes := by
  induction m with
  | nil => intro a _; rfl
  | cons c m ih =>
    intro a h
    simp only [List.map_cons, List.length_cons, List.range'_succ, List.cons.injEq] at h
    simp only [Memory.bytes, List.map_cons, Memory.cellsFrom, List.cons.injEq]
    exact ⟨by rw [← h.1], ih h.2⟩

/-- Equal byte vectors are equal memories. -/
theorem Memory.ofBytes_bytes {m : Memory} (h : m.wf) : Memory.ofBytes m.bytes = m := by
  have h' : m.map Prod.fst = List.range' 0 m.length := by rw [← List.range_eq_range']; exact h
  exact (Memory.eq_cellsFrom h').symm

theorem Memory.read_cellsFrom (bs : List Byte) :
    ∀ a x, (Memory.cellsFrom a bs).read x = if a ≤ x then bs[x - a]? else none := by
  induction bs with
  | nil => intro a x; simp [Memory.cellsFrom, Memory.read]
  | cons b bs ih =>
    intro a x
    have ih' := ih (a + 1) x
    simp only [Memory.read] at ih'
    simp only [Memory.cellsFrom, Memory.read, List.lookup_cons, ih']
    by_cases h : x = a
    · subst h; simp
    · by_cases hle : a ≤ x
      · have e : x - a = (x - (a + 1)) + 1 := by omega
        have hlt : a + 1 ≤ x := by omega
        simp [beq_eq_false_iff_ne.mpr h, hle, hlt, e]
      · have hlt : ¬ a + 1 ≤ x := by omega
        simp [beq_eq_false_iff_ne.mpr h, hle, hlt]

/-- Reading by address is indexing the byte vector. -/
theorem Memory.read_ofBytes (bs : List Byte) (x : Nat) : (Memory.ofBytes bs).read x = bs[x]? := by
  simp [Memory.ofBytes, Memory.read_cellsFrom]

theorem Memory.read_eq {m : Memory} (h : m.wf) (x : Nat) : m.read x = m.bytes[x]? := by
  conv_lhs => rw [← Memory.ofBytes_bytes h]
  exact Memory.read_ofBytes _ _

/-- No byte exists exactly at and beyond `LEN`. -/
theorem Memory.read_eq_none {m : Memory} (h : m.wf) (x : Nat) : m.read x = none ↔ m.length ≤ x := by
  rw [Memory.read_eq h]; simp

/-- A write leaves every other address alone. -/
theorem Memory.read_write_ne (m : Memory) {a x : Nat} (v : Byte) (h : x ≠ a) :
    (m.write a v).read x = m.read x := by
  induction m with
  | nil => rfl
  | cons c m ih =>
    obtain ⟨ca, cb⟩ := c
    simp only [Memory.read, Memory.write] at ih
    simp only [Memory.read, Memory.write, List.map_cons]
    by_cases hc : ca = a
    · have h1 : (x == a) = false := beq_eq_false_iff_ne.mpr h
      simp [List.lookup_cons, hc, h1, ih]
    · simp only [hc, if_false, List.lookup_cons, ih]

/-- A read after a write to a listed address gives the value written. -/
theorem Memory.read_write_eq {m : Memory} {a : Nat} (v : Byte) (h : a ∈ m.map Prod.fst) :
    (m.write a v).read a = some v := by
  induction m with
  | nil => simp at h
  | cons c m ih =>
    obtain ⟨ca, cb⟩ := c
    simp only [Memory.read, Memory.write] at ih
    simp only [Memory.read, Memory.write, List.map_cons]
    by_cases hc : ca = a
    · simp [hc]
    · have hm : a ∈ m.map Prod.fst := by
        rw [List.map_cons, List.mem_cons] at h
        exact h.resolve_left (Ne.symm hc)
      have h1 : (a == ca) = false := beq_eq_false_iff_ne.mpr (Ne.symm hc)
      simp only [hc, if_false, List.lookup_cons, h1, ih hm]

/-- The byte vector after a write. -/
theorem Memory.bytes_write {m : Memory} (h : m.wf) (a : Nat) (v : Byte) :
    (m.write a v).bytes = m.bytes.set a v := by
  apply List.ext_getElem?
  intro x
  rw [← Memory.read_eq (Memory.write_wf h a v), List.getElem?_set]
  by_cases e : a = x
  · subst e
    simp only [if_true, Memory.bytes_length]
    by_cases hl : a < m.length
    · simp only [hl, if_true]
      apply Memory.read_write_eq
      have h' : m.map Prod.fst = List.range m.length := h
      rw [h']; simpa using hl
    · simp only [hl, if_false]
      rw [Memory.read_eq_none (Memory.write_wf h a v)]
      simpa using Nat.not_lt.mp hl
  · simp only [e, if_false]
    rw [Memory.read_write_ne m v (Ne.symm e), Memory.read_eq h]

/-! ### The buffer of a state -/

@[simp] theorem State.buf_length (s : State) : s.buf.length = s.len := by simp [State.buf, State.len]
@[simp] theorem State.setBuf_buf (s : State) (B : List Byte) : (s.setBuf B).buf = B := by
  simp [State.buf]
@[simp] theorem State.setBuf_len (s : State) (B : List Byte) : (s.setBuf B).len = B.length := by
  simp [State.len]
@[simp] theorem State.memWrite_len (s : State) (a : Nat) (v : Byte) : (s.memWrite a v).len = s.len := by
  simp [State.len]
theorem State.memWrite_buf {s : State} (h : s.mem.wf) (a : Nat) (v : Byte) :
    (s.memWrite a v).buf = s.buf.set a v := Memory.bytes_write h a v
@[simp] theorem State.setStatus_buf (s : State) (st : Status) : (s.setStatus st).buf = s.buf := rfl
@[simp] theorem State.setStatus_len (s : State) (st : Status) : (s.setStatus st).len = s.len := rfl
@[simp] theorem State.finish_buf (s : State) (r : Bool) : (s.finish r).buf = s.buf := rfl
@[simp] theorem State.finish_len (s : State) (r : Bool) : (s.finish r).len = s.len := rfl
@[simp] theorem State.raise_buf (s : State) (e : ErrKind) : (s.raise e).buf = s.buf := rfl
@[simp] theorem State.raise_len (s : State) (e : ErrKind) : (s.raise e).len = s.len := rfl
@[simp] theorem State.setRdata_buf (s : State) (v : Byte) : (s.setRdata v).buf = s.buf := rfl
@[simp] theorem State.setRdata_len (s : State) (v : Byte) : (s.setRdata v).len = s.len := rfl
@[simp] theorem State.setPending_buf (s : State) (q : List HostAction) : (s.setPending q).buf = s.buf := rfl
@[simp] theorem State.setPending_len (s : State) (q : List HostAction) : (s.setPending q).len = s.len := rfl

end Sys2Proof.Machine
end

