-- ==== Sys2Proof/Laws/Ops.lean ====
section
/-! SUPPORT. What each shared operation of the commands can do. -/

namespace Sys2Proof.Machine

/-- While not halted a command is its own meaning. -/
@[simp] theorem State.whenRunning_of_running {s : State} (h : s.status.halted = false) (k : Answer) :
    s.whenRunning k = k := by simp [State.whenRunning, h]

/-- While halted a command changes nothing (R152). -/
@[simp] theorem State.whenRunning_of_halted {s : State} (h : s.status.halted = true) (k : Answer) :
    s.whenRunning k = .next s := by simp [State.whenRunning, h]

/-- A gated command that answers `next t` either was not executed or answered it itself. -/
theorem State.whenRunning_next {s t : State} {k : Answer} (h : s.whenRunning k = .next t) :
    (s.status.halted = true ∧ t = s) ∨ (s.status.halted = false ∧ k = .next t) := by
  unfold State.whenRunning at h
  split at h
  · rename_i hh; cases h; exact .inl ⟨hh, rfl⟩
  · rename_i hh; exact .inr ⟨by simpa using hh, h⟩

/-- What growing the buffer can answer. -/
theorem State.growTo_next {s t : State} {B : List Byte} (h : s.growTo B = .next t) :
    Instance.capOk s.inst B.length = true ∧ t = (s.setBuf B).finish false := by
  unfold State.growTo at h
  split at h
  · rename_i hc; cases h; exact ⟨hc, rfl⟩
  · cases h

theorem State.growTo_of_fits {s : State} {B : List Byte}
    (h : Instance.capOk s.inst B.length = true) :
    s.growTo B = .next ((s.setBuf B).finish false) := by simp [State.growTo, h]

/-- `raise` writes STATUS and nothing else (R150). -/
theorem State.raise_eq (s : State) (e : ErrKind) :
    s.raise e = { s with status := s.status.raised e } := rfl

/-- What abandoning `HAM.VERIFY` leaves fixed, whatever the free buffer is (R146). -/
theorem State.abandon_frame (s : State) :
    s.abandon.status = { result := false, err := .internalInconsistency, halted := true } ∧
    s.abandon.inst = s.inst ∧ s.abandon.idx = s.idx ∧ s.abandon.data = s.data ∧
    s.abandon.rdata = s.rdata ∧ s.abandon.pending = s.pending ∧
    s.abandon.hostRead = s.hostRead ∧ s.abandon.mem.wf := by
  refine ⟨?_, rfl, rfl, rfl, rfl, rfl, rfl, Memory.ofBytes_wf _⟩
  simp [State.abandon, Status.raised]

/-- A cut buffer is within `BUF_CAP`. -/
theorem Instance.cut_capOk (c : Instance) (B : List Byte) :
    Instance.capOk c (Instance.cut c B).length = true := by
  cases h : c.bufCap with
  | none => simp [Instance.capOk, h]
  | some k => simp [Instance.capOk, Instance.cut, h, List.length_take]

/-- An illegal word raises `IllegalCommand`, or nothing while halted (R147, R152). -/
theorem State.illegalCommand_next {s t : State} (h : s.illegalCommand = .next t) :
    (s.status.halted = true ∧ t = s) ∨
    (s.status.halted = false ∧ t = s.raise .illegalCommand) := by
  rcases State.whenRunning_next h with ⟨hh, ht⟩ | ⟨hh, ht⟩
  · exact .inl ⟨hh, ht⟩
  · cases ht; exact .inr ⟨hh, rfl⟩

end Sys2Proof.Machine
end

