-- ==== Sys2Proof/Laws/Exec.lean ====
section
/-! SUPPORT. One inversion per meaning: what a command that runs and answers `next t` did. -/

namespace Sys2Proof.Machine

variable {s t : State}

theorem exec_bufClear_next (hh : s.status.halted = false) (h : exec .bufClear s = .next t) :
    t = (s.setBuf []).finish false := by
  simp only [exec, execBufClear, State.whenRunning_of_running hh] at h
  cases h; rfl

theorem exec_bufPush_next (hh : s.status.halted = false) (h : exec .bufPush s = .next t) :
    Instance.capOk s.inst (s.len + 1) = true ∧ t = (s.setBuf (s.buf ++ [s.data])).finish false := by
  simp only [exec, execBufPush, State.whenRunning_of_running hh] at h
  obtain ⟨hc, rfl⟩ := State.growTo_next h
  exact ⟨by simpa using hc, rfl⟩

theorem exec_bufRdbyte_next (hh : s.status.halted = false) (h : exec .bufRdbyte s = .next t) :
    (∃ b, s.mem.read s.idx = some b ∧ t = (s.setRdata b).finish false) ∨
    (s.mem.read s.idx = none ∧ t = s.raise .indexOutOfRange) := by
  simp only [exec, execBufRdbyte, State.whenRunning_of_running hh, State.byteIndex] at h
  split at h
  · rename_i b hb; cases h; exact .inl ⟨b, hb, rfl⟩
  · rename_i hb; cases h; exact .inr ⟨hb, rfl⟩

theorem exec_bufWrbyte_next (hh : s.status.halted = false) (h : exec .bufWrbyte s = .next t) :
    (s.idx < s.len ∧ t = (s.memWrite s.idx s.data).finish false) ∨
    (s.len ≤ s.idx ∧ t = s.raise .indexOutOfRange) := by
  simp only [exec, execBufWrbyte, State.whenRunning_of_running hh] at h
  split at h
  · rename_i hl; cases h; exact .inr ⟨hl, rfl⟩
  · rename_i hl; cases h; exact .inl ⟨Nat.not_le.mp hl, rfl⟩

theorem exec_bufGetbit_next (hh : s.status.halted = false) (h : exec .bufGetbit s = .next t) :
    t = (s.setRdata (bitByte (getBitOrZero s.buf s.idx))).finish false := by
  simp only [exec, execBufGetbit, State.whenRunning_of_running hh] at h
  cases h; rfl

theorem exec_bufSetbit_next (hh : s.status.halted = false) (h : exec .bufSetbit s = .next t) :
    (s.idx / 8 < s.len ∧
      t = (s.setBuf (setBit s.buf s.idx (s.data.getLsbD 0))).finish false) ∨
    (s.len ≤ s.idx / 8 ∧ t = s.raise .indexOutOfRange) := by
  simp only [exec, execBufSetbit, State.whenRunning_of_running hh] at h
  split at h
  · rename_i hl; cases h; exact .inr ⟨hl, rfl⟩
  · rename_i hl; cases h; exact .inl ⟨Nat.not_le.mp hl, rfl⟩

theorem exec_crcInit_next (hh : s.status.halted = false) (h : exec .crcInit s = .next t) :
    Instance.capOk s.inst (s.len + 2) = true ∧ t = (s.setBuf (s.buf ++ zeros 2)).finish false := by
  simp only [exec, execCrcInit, State.whenRunning_of_running hh] at h
  obtain ⟨hc, rfl⟩ := State.growTo_next h
  exact ⟨by simpa [Config.fcsBytes] using hc, rfl⟩

theorem exec_crcCompute_next (hh : s.status.halted = false) (h : exec .crcCompute s = .next t) :
    (s.len < 2 ∧ t = s.raise .invalidState) ∨
    (2 ≤ s.len ∧ t = ((s.memWrite (s.len - 2) (fcsHigh (doCompute s.buf))).memWrite (s.len - 1)
      (fcsLow (doCompute s.buf))).finish false) := by
  simp only [exec, execCrcCompute, State.whenRunning_of_running hh] at h
  split at h
  · rename_i hl; cases h; exact .inl ⟨hl, rfl⟩
  · rename_i hl; cases h; exact .inr ⟨Nat.not_lt.mp hl, rfl⟩

theorem exec_crcVerify_next (hh : s.status.halted = false) (h : exec .crcVerify s = .next t) :
    (s.len < 2 ∧ t = s.finish false) ∨
    (2 ≤ s.len ∧ t = (s.setBuf (s.buf.take (s.len - 2))).finish (doCompute s.buf == 0#16)) := by
  simp only [exec, execCrcVerify, State.whenRunning_of_running hh] at h
  split at h
  · rename_i hl; cases h; exact .inl ⟨hl, rfl⟩
  · rename_i hl; cases h; exact .inr ⟨Nat.not_lt.mp hl, rfl⟩

theorem exec_hamInit_next (hh : s.status.halted = false) (h : exec .hamInit s = .next t) :
    Instance.capOk s.inst (hamInitBuf s.inst s.buf).length = true ∧
    t = (s.setBuf (hamInitBuf s.inst s.buf)).finish false := by
  simp only [exec, execHamInit, State.whenRunning_of_running hh] at h
  split at h
  · exact State.growTo_next h
  · cases h

theorem exec_hamCompute_next (hh : s.status.halted = false) (h : exec .hamCompute s = .next t) :
    (s.len % s.inst.wordbytes ≠ 0 ∧ t = s.raise .invalidState) ∨
    (s.len % s.inst.wordbytes = 0 ∧ t = (s.setBuf (hamComputeBuf s.inst s.buf)).finish false) := by
  simp only [exec, execHamCompute, State.whenRunning_of_running hh] at h
  split at h
  · rename_i hl; cases h; exact .inl ⟨hl, rfl⟩
  · rename_i hl
    split at h
    · cases h; exact .inr ⟨not_not.mp hl, rfl⟩
    · cases h

theorem exec_hamVerify_next (hh : s.status.halted = false) (h : exec .hamVerify s = .next t) :
    (s.len % s.inst.wordbytes ≠ 0 ∧ t = s.raise .invalidState) ∨
    (s.len % s.inst.wordbytes = 0 ∧ ∃ out, hamVerifyBuf s.inst s.buf = some out ∧
      t = (s.setBuf out).finish true) ∨
    (s.len % s.inst.wordbytes = 0 ∧ hamVerifyBuf s.inst s.buf = none ∧ t = s.abandon) := by
  simp only [exec, execHamVerify, State.whenRunning_of_running hh] at h
  split at h
  · rename_i hl; cases h; exact .inl ⟨hl, rfl⟩
  · rename_i hl
    split at h
    · split at h
      · rename_i out ho; cases h; exact .inr (.inl ⟨not_not.mp hl, out, ho, rfl⟩)
      · rename_i ho; cases h; exact .inr (.inr ⟨not_not.mp hl, ho, rfl⟩)
    · cases h

end Sys2Proof.Machine
end

