-- ==== Sys2Proof/Laws/Ham.lean ====
section
/-! SUPPORT. Lengths through the loops of the Hamming unit. -/

namespace Sys2Proof.Machine

/-- A loop whose every turn keeps a length keeps it. -/
theorem foldl_keeps_length {α β : Type} (len : β → Nat) (f : β → α → β)
    (hf : ∀ b a, len (f b a) = len b) (l : List α) : ∀ b, len (l.foldl f b) = len b := by
  induction l with
  | nil => intro b; rfl
  | cons a l ih => intro b; rw [List.foldl_cons, ih, hf]

theorem initPos_length (c : Instance) (B : List Byte) (w : Nat) (a : List Byte × Nat) (q : Nat) :
    (initPos c B w a q).1.length = a.1.length := by
  unfold initPos; split <;> simp

theorem initWord_length (c : Instance) (B : List Byte) (a : List Byte × Nat) (w : Nat) :
    (initWord c B a w).1.length = a.1.length :=
  foldl_keeps_length (fun a : List Byte × Nat => a.1.length) _ (initPos_length c B w) _ a

/-- `HAM.INIT`'s buffer has `words * WORDBYTES` bytes (R115). -/
@[simp] theorem hamInitBuf_length (c : Instance) (B : List Byte) :
    (hamInitBuf c B).length = initWords c B.length * c.wordbytes := by
  have h := foldl_keeps_length (fun a : List Byte × Nat => a.1.length) (initWord c B)
    (initWord_length c B) (List.range (initWords c B.length))
    (zeros (initWords c B.length * c.wordbytes), 0)
  exact h.trans (zeros_length _)

theorem computeWord_length (c : Instance) (B : List Byte) (w : Nat) :
    (computeWord c B w).length = B.length :=
  foldl_keeps_length List.length _ (fun B k => by simp [computeBit]) _ B

/-- `HAM.COMPUTE` keeps the length (R116). -/
@[simp] theorem hamComputeBuf_length (c : Instance) (B : List Byte) :
    (hamComputeBuf c B).length = B.length :=
  foldl_keeps_length List.length _ (computeWord_length c) _ B

theorem extractPos_length (c : Instance) (w : Nat) (a : VerifyAcc) (q : Nat) :
    (extractPos c w a q).out.length = a.out.length := by
  unfold extractPos; split <;> simp

/-- A word of `HAM.VERIFY` that is not inconsistent keeps the output's length. -/
theorem verifyWord_length {c : Instance} {a a' : VerifyAcc} {w : Nat}
    (h : verifyWord c a w = some a') : a'.out.length = a.out.length := by
  unfold verifyWord at h
  simp only at h
  split at h
  · cases h
  · cases h
    exact foldl_keeps_length (fun a : VerifyAcc => a.out.length) _ (extractPos_length c w) _ _

theorem verifyWords_length {c : Instance} {ws : List Nat} :
    ∀ {a a' : VerifyAcc}, verifyWords c ws a = some a' → a'.out.length = a.out.length := by
  induction ws with
  | nil => intro a a' h; cases h; rfl
  | cons w ws ih =>
    intro a a' h
    simp only [verifyWords] at h
    split at h
    · rename_i a₁ h₁; rw [ih h, verifyWord_length h₁]
    · cases h

/-- `HAM.VERIFY`'s payload has `ceil(words * DATABITS / 8)` bytes (R120). -/
theorem hamVerifyBuf_length {c : Instance} {B out : List Byte} (h : hamVerifyBuf c B = some out) :
    out.length = ceilDiv (B.length / c.wordbytes * c.databits) 8 := by
  unfold hamVerifyBuf at h
  simp only at h
  split at h
  · rename_i a ha; cases h; rw [verifyWords_length ha]; simp
  · cases h

/-- The corruption of law (c) keeps the length (R124). -/
@[simp] theorem flipPositions_length (c : Instance) (B : List Byte) (w p q : Nat) :
    (flipPositions c B w p q).length = B.length := by simp [flipPositions]

end Sys2Proof.Machine
end

