-- ==== Sys2Proof/Laws/PerInstr.lean ====
section
/-! SUPPORT. The per-instruction family Encoding: each command is well formed, and the opcode table's word for it reads back as it. -/

namespace Sys2Proof.Laws.Encoding

/-- The command is well formed and its word, taken as an opcode-table word, decodes to it. -/
def Statement (i : Instr) : Prop :=
  i.wf = true ∧ decodeTableWord 8 (encode i).toNat = some i

theorem bufClear : Statement .bufClear := ⟨rfl, by decide⟩
theorem bufPush : Statement .bufPush := ⟨rfl, by decide⟩
theorem bufRdbyte : Statement .bufRdbyte := ⟨rfl, by decide⟩
theorem bufWrbyte : Statement .bufWrbyte := ⟨rfl, by decide⟩
theorem bufGetbit : Statement .bufGetbit := ⟨rfl, by decide⟩
theorem bufSetbit : Statement .bufSetbit := ⟨rfl, by decide⟩
theorem crcInit : Statement .crcInit := ⟨rfl, by decide⟩
theorem crcCompute : Statement .crcCompute := ⟨rfl, by decide⟩
theorem crcVerify : Statement .crcVerify := ⟨rfl, by decide⟩
theorem hamInit : Statement .hamInit := ⟨rfl, by decide⟩
theorem hamCompute : Statement .hamCompute := ⟨rfl, by decide⟩
theorem hamVerify : Statement .hamVerify := ⟨rfl, by decide⟩

end Sys2Proof.Laws.Encoding
end

