-- ==== Sys2Proof/Laws/Step.lean ====
section
/-! SUPPORT. What a step is, by the host's next action. -/

namespace Sys2Proof.Machine

theorem step_of_idle {s : State} (h : s.pending = []) : step s = .next s := by
  simp [step, stepHost, h]

theorem step_of_pending {s : State} {a : HostAction} {rest : List HostAction}
    (h : s.pending = a :: rest) : step s = hostStep a (s.setPending rest) := by
  simp [step, stepHost, h]

/-- The inversion of a step: idle, or the next action's own answer. -/
theorem step_cases (s : State) :
    (s.pending = [] ∧ step s = .next s) ∨
    ∃ a rest, s.pending = a :: rest ∧ step s = hostStep a (s.setPending rest) := by
  cases h : s.pending with
  | nil => exact .inl ⟨rfl, step_of_idle h⟩
  | cons a rest => exact .inr ⟨a, rest, rfl, step_of_pending h⟩

/-- What a host write that answers `next t` did. -/
theorem hostWrite_next {number value : Nat} {s t : State} (h : hostWrite number value s = .next t) :
    (number = 0 ∧ value < 256 ∧ runCommandWord (BitVec.ofNat 8 value) s = .next t) ∨
    (number = 2 ∧ Instance.fitsIdx s.inst value = true ∧ t = s.setIdx value) ∨
    (number = 3 ∧ value < 256 ∧ t = s.setData (BitVec.ofNat 8 value)) ∨
    (number ≠ 0 ∧ number ≠ 2 ∧ number ≠ 3 ∧ t = s) := by
  unfold hostWrite at h
  split at h
  · split at h
    · rename_i hv; exact .inl ⟨rfl, by simpa using hv, h⟩
    · cases h
  · split at h
    · rename_i hv; cases h; exact .inr (.inl ⟨rfl, hv, rfl⟩)
    · cases h
  · split at h
    · rename_i hv; cases h; exact .inr (.inr (.inl ⟨rfl, by simpa using hv, rfl⟩))
    · cases h
  · rename_i h0 h2 h3; cases h; exact .inr (.inr (.inr ⟨h0, h2, h3, rfl⟩))

/-- What a written command word that answers `next t` did. -/
theorem runCommandWord_next {v : Byte} {s t : State} (h : runCommandWord v s = .next t) :
    (∃ i, decode v = .command i ∧ exec i s = .next t) ∨
    (∃ r, decode v = .rejected r ∧ s.illegalCommand = .next t) := by
  unfold runCommandWord at h
  split at h
  · rename_i i hi; exact .inl ⟨i, hi, h⟩
  · rename_i r hr; exact .inr ⟨r, hr, h⟩

end Sys2Proof.Machine
end

