-- ==== Sys2Proof/Machine/Assembler.lean ====
section
/-! DEFINITION. The assembler lines and macros of 30_encoding.md R60, as the host actions they expand to. -/

namespace Sys2Proof.Machine

/-- A line of a program (R60). Operands are the numbers as written. -/
inductive AsmLine where
  | bufClear
  | bufPush (b : Nat)
  | bufRdbyte (j : Nat)
  | bufWrbyte (j b : Nat)
  | bufGetbit (i : Nat)
  | bufSetbit (i v : Nat)
  | crcInit
  | crcCompute
  | crcVerify
  | hamInit
  | hamCompute
  | hamVerify
  /-- `LOAD b0 b1 ... bk`, the macro. -/
  | loadBytes (bs : List Nat)
  | crcEncode
  | hamEncode
  /-- `BUF.FLIPBIT i`; `seen` is the bit `RDATA[0]` that the host reads between the macro's two
  commands and complements (log 13). -/
  | bufFlipbit (i : Nat) (seen : Bool)
  deriving DecidableEq, Repr

/-- The register writes a line stands for: `W0` is `CMD`, `W2` is `IDX`, `W3` is `DATA` (R60). -/
def AsmLine.expand : AsmLine → List HostAction
  | .bufClear => [.writeReg 0 0x01]
  | .bufPush b => [.writeReg 3 b, .writeReg 0 0x02]
  | .bufRdbyte j => [.writeReg 2 j, .writeReg 0 0x03]
  | .bufWrbyte j b => [.writeReg 2 j, .writeReg 3 b, .writeReg 0 0x04]
  | .bufGetbit i => [.writeReg 2 i, .writeReg 0 0x05]
  | .bufSetbit i v => [.writeReg 2 i, .writeReg 3 v, .writeReg 0 0x06]
  | .crcInit => [.writeReg 0 0x10]
  | .crcCompute => [.writeReg 0 0x11]
  | .crcVerify => [.writeReg 0 0x12]
  | .hamInit => [.writeReg 0 0x20]
  | .hamCompute => [.writeReg 0 0x21]
  | .hamVerify => [.writeReg 0 0x22]
  | .loadBytes bs => .writeReg 0 0x01 :: bs.flatMap (fun b => [.writeReg 3 b, .writeReg 0 0x02])
  | .crcEncode => [.writeReg 0 0x10, .writeReg 0 0x11]
  | .hamEncode => [.writeReg 0 0x20, .writeReg 0 0x21]
  | .bufFlipbit i seen =>
    [.writeReg 2 i, .writeReg 0 0x05, .writeReg 2 i, .writeReg 3 (1 - seen.toNat),
     .writeReg 0 0x06]

/-- A program's host actions, in list order (10_state.md R18). -/
def assemble (lines : List AsmLine) : List HostAction := lines.flatMap AsmLine.expand

end Sys2Proof.Machine
end

