-- ==== Sys2Proof/Tests/Slice0.lean ====
section
/-! SUPPORT. Tests of the model, expected values from the tables of spec/95_test_vectors.md (each theorem names its vector), and for each statement with hypotheses a concrete state that meets them. -/

namespace Sys2Proof.Tests

open Sys2Proof Sys2Proof.Machine

/-- The (15,11) instance, sizes from 43_hamming.md R111. -/
def ham15 : Instance :=
  { codebits := 15, n := 4, databits := 11, paddingbits := 1, wordbytes := 2,
    bufCap := none, idxw := none }

/-- The (3,1) instance, sizes from 43_hamming.md R111. -/
def ham3 : Instance :=
  { codebits := 3, n := 2, databits := 1, paddingbits := 5, wordbytes := 1,
    bufCap := none, idxw := none }

/-- `CODEBITS = 7` with a buffer of at most 2 bytes. -/
def capped : Instance := { Instance.hamming74 with bufCap := some 2 }

/-- `CODEBITS = 7` with 4-bit indices. -/
def narrow : Instance := { Instance.hamming74 with idxw := some 4 }

/-- No legal instance: a syndrome of 3 exceeds its `CODEBITS` of 2. -/
def illegal2 : Instance :=
  { codebits := 2, n := 2, databits := 0, paddingbits := 6, wordbytes := 1,
    bufCap := none, idxw := none }

/-- The reset state of instance `c` with a buffer loaded and the operand registers written. -/
def loaded (c : Instance) (bs : List Byte) (idx : Nat := 0) (data : Byte := 0) : State :=
  { State.resetOf c with mem := Memory.ofBytes bs, idx := idx, data := data }

/-- The same, with host actions pending. -/
def queued (s : State) (q : List HostAction) : State := s.setPending q

/-- A halted state (V-E12). -/
def haltedState : State :=
  { loaded ham15 [0x27, 0x0A] with
    status := { result := false, err := .internalInconsistency, halted := true } }

/-- The answer is a next state with this buffer and this STATUS word. -/
def gives (r : Answer) (bs : List Byte) (status : Byte) : Bool :=
  match r with
  | .next t => decide (t.buf = bs) && decide (t.status.word = status)
  | _ => false

/-- The answer is a next state with this buffer, RDATA and STATUS word. -/
def reads (r : Answer) (bs : List Byte) (rdata status : Byte) : Bool :=
  match r with
  | .next t => gives r bs status && decide (t.rdata = rdata)
  | _ => false

/-! ### Well-formedness: an ill-formed instance for each check is refused -/

theorem test_wf_accepts : Instance.hamming74.wf ∧ ham15.wf ∧ ham3.wf := by decide
theorem test_wf_small_n :
    ¬ ({ codebits := 1, n := 1, databits := 0, paddingbits := 7, wordbytes := 1,
         bufCap := none, idxw := none } : Instance).wf := by decide
theorem test_wf_large_n :
    ¬ ({ codebits := 2 ^ 33 - 1, n := 33, databits := 2 ^ 33 - 34, paddingbits := 1,
         wordbytes := 2 ^ 30, bufCap := none, idxw := none } : Instance).wf := by decide
theorem test_wf_codebits : ¬ ({ ham15 with codebits := 14 } : Instance).wf := by decide
theorem test_wf_databits : ¬ ({ ham15 with databits := 12 } : Instance).wf := by decide
theorem test_wf_paddingbits : ¬ ({ ham15 with paddingbits := 9 } : Instance).wf := by decide
theorem test_wf_wordbytes : ¬ ({ ham15 with wordbytes := 1 } : Instance).wf := by decide

/-! ### Construction (V-K1 to V-K12) -/

theorem test_construct_errors :
    [0, 1, 2, 6, 8, 8589934591, 4294967296].map (fun n => construct n) =
      [none, none, none, none, none, none, none] := by decide
theorem test_construct_legal :
    construct 3 = some ham3 ∧ construct 7 = some Instance.hamming74 ∧
    construct 15 = some ham15 := by decide
theorem test_construct_large :
    (construct 2147483647).map (fun c => (c.n, c.databits, c.paddingbits, c.wordbytes)) =
      some (31, 2147483616, 1, 268435456) ∧
    (construct 4294967295).map (fun c => (c.n, c.databits, c.paddingbits, c.wordbytes)) =
      some (32, 4294967263, 1, 536870912) := by decide

/-! ### Decoding: each word written bit by bit, UNIT then OP (30_encoding.md R55, R57) -/

theorem test_decode_buf :
    decode 0b0000_0001#8 = .command .bufClear ∧ decode 0b0000_0010#8 = .command .bufPush ∧
    decode 0b0000_0011#8 = .command .bufRdbyte ∧ decode 0b0000_0100#8 = .command .bufWrbyte ∧
    decode 0b0000_0101#8 = .command .bufGetbit ∧ decode 0b0000_0110#8 = .command .bufSetbit := by
  decide
theorem test_decode_crc :
    decode 0b0001_0000#8 = .command .crcInit ∧ decode 0b0001_0001#8 = .command .crcCompute ∧
    decode 0b0001_0010#8 = .command .crcVerify := by decide
theorem test_decode_ham :
    decode 0b0010_0000#8 = .command .hamInit ∧ decode 0b0010_0001#8 = .command .hamCompute ∧
    decode 0b0010_0010#8 = .command .hamVerify := by decide
theorem test_decode_rejects :
    [0x00#8, 0x07#8, 0x0F#8, 0x13#8, 0x1F#8, 0x23#8, 0x2F#8].map decode =
      List.replicate 7 (.rejected .reservedOp) ∧
    [0x30#8, 0xFF#8].map decode = List.replicate 2 (.rejected .reservedUnit) := by decide

/-! ### The buffer commands -/

theorem test_clear_V_B1 : gives (exec .bufClear (loaded ham15 [0x31, 0x32])) [] 0x00 = true := by
  decide
theorem test_push_V_B3 :
    gives (exec .bufPush (loaded ham15 [0x31, 0x32] 0 0x33)) [0x31, 0x32, 0x33] 0x00 = true := by
  decide
theorem test_rdbyte_V_B5 :
    reads (exec .bufRdbyte (loaded ham15 [0xD6, 0x4E] 1)) [0xD6, 0x4E] 0x4E 0x00 = true := by decide
theorem test_rdbyte_V_B6 :
    reads (exec .bufRdbyte (loaded ham15 [0xD6, 0x4E] 2)) [0xD6, 0x4E] 0x00 0x08 = true := by decide
theorem test_wrbyte_V_B8 :
    gives (exec .bufWrbyte (loaded ham15 [0x7F, 0x7F] 0 0x7E)) [0x7E, 0x7F] 0x00 = true := by decide
theorem test_wrbyte_V_B9 :
    gives (exec .bufWrbyte (loaded ham15 [0x7F, 0x7F] 2 0x7E)) [0x7F, 0x7F] 0x08 = true := by decide
theorem test_getbit_V_B14 :
    reads (exec .bufGetbit (loaded ham15 [0x00, 0x80] 15)) [0x00, 0x80] 0x01 0x00 = true := by decide
theorem test_getbit_V_B13 :
    reads (exec .bufGetbit (loaded ham15 [0xA5] 8)) [0xA5] 0x00 0x00 = true := by decide
theorem test_setbit_V_B16 :
    gives (exec .bufSetbit (loaded ham15 [0x7F, 0x7F] 10 0x00)) [0x7F, 0x7B] 0x00 = true := by decide
theorem test_setbit_V_B19 :
    gives (exec .bufSetbit (loaded ham15 [0x00, 0x00] 7 0xFE)) [0x00, 0x00] 0x00 = true := by decide

/-! ### The CRC unit -/

theorem test_crcStep :
    crcStep 0x84CF#16 false = 0x19BF#16 ∧ crcStep 0x8000#16 true = 0x1020#16 ∧
    crcStep 0xFFFF#16 true = 0xEFDE#16 ∧ crcStep 0x7FFF#16 true = 0xFFFF#16 := by decide
theorem test_bitRev8 :
    [0x00, 0x01, 0x80, 0xA5, 0x31, 0x0F].map bitRev8 = [0x00, 0x80, 0x01, 0xA5, 0x8C, 0xF0] := by
  decide
theorem test_doCompute :
    doCompute [] = 0x7B30#16 ∧ doCompute [0x31] = 0xE1C2#16 ∧ doCompute [0x00, 0x00] = 0x0000#16 := by decide +kernel
theorem test_crcInit_V_C5 :
    gives (exec .crcInit (loaded ham15 [0x31])) [0x31, 0x00, 0x00] 0x00 = true := by decide
theorem test_crcCompute_V_C6 :
    gives (exec .crcCompute (loaded ham15
      [0x31, 0x32, 0x33, 0x34, 0x35, 0x36, 0x37, 0x38, 0x39, 0x00, 0x00]))
      [0x31, 0x32, 0x33, 0x34, 0x35, 0x36, 0x37, 0x38, 0x39, 0xD6, 0x4E] 0x00 = true := by decide +kernel
theorem test_crcCompute_V_C14 :
    gives (exec .crcCompute (loaded ham15 [0x5A])) [0x5A] 0x02 = true := by decide
theorem test_crcVerify_V_C5 :
    gives (exec .crcVerify (loaded ham15 [0x31, 0x38, 0x7D])) [0x31] 0x01 = true := by decide +kernel
theorem test_crcVerify_V_C17 :
    gives (exec .crcVerify (loaded ham15 [0x31, 0xC7, 0x82])) [0x31] 0x00 = true := by decide +kernel

/-! ### The Hamming unit -/

theorem test_hamInit_V_H2 :
    gives (exec .hamInit (loaded .hamming74 [0xA5, 0x3C])) [0x24, 0x50, 0x60, 0x14] 0x00 = true := by
  decide
theorem test_hamInit_V_H30 :
    gives (exec .hamInit (loaded ham15 [0xFF])) [0x74, 0x0F] 0x00 = true := by decide +kernel
theorem test_hamCompute_V_H51 :
    gives (exec .hamCompute (loaded ham15 [0x24, 0x0A])) [0x27, 0x0A] 0x00 = true := by decide +kernel
theorem test_hamCompute_V_H61 :
    gives (exec .hamCompute (loaded ham3 [0xF8])) [0xF8] 0x00 = true := by decide
theorem test_hamVerify_V_H17 :
    gives (exec .hamVerify (loaded .hamming74 [0x2D, 0x12])) [0xA5] 0x01 = true := by decide
theorem test_hamVerify_V_H50 :
    gives (exec .hamVerify (loaded ham15 [0x27])) [0x27] 0x02 = true := by decide
/-- spec/95 V-H25: bits 4 and 5 of word 1; the syndrome is 3. -/
theorem test_flipPositions_V_H25 :
    flipPositions .hamming74 [0x2D, 0x52, 0x61, 0x1E] 1 5 6 = [0x2D#8, 0x62, 0x61, 0x1E] ∧
    syndrome .hamming74 [0x2D, 0x62, 0x61, 0x1E] 1 = 3 := by decide
theorem test_syndrome_V_H44 :
    newPar ham15 [0xAC, 0x0A] 0 = 3#32 ∧ oldPar ham15 [0xAC, 0x0A] 0 = 12#32 ∧
    syndrome ham15 [0xAC, 0x0A] 0 = 15 := by decide

/-! ### The step, the registers, HALTED and reset (V-E1, V-E12 to V-E14) -/

theorem test_step_illegal_V_E2 :
    gives (step ((loaded .hamming74 [0x7F]).withFetchWord 8 0x07)) [0x7F] 0x06 = true := by decide
theorem test_step_halted_V_E12 :
    gives (step (haltedState.withFetchWord 8 0x01)) [0x27, 0x0A] 0x14 = true := by decide
theorem test_step_reset_V_E13 :
    gives (step (queued haltedState [.reset])) [] 0x00 = true := by decide
theorem test_readReg_V_E14 :
    [0, 5, 6, 7, 8, 9, 10, 11, 12, 13].map (loaded ham15 [0x27, 0x0A]).readReg =
      [0, 2, 0, 0, 15, 4, 11, 1, 2, 0] := by decide
theorem test_write_readonly_V_E14 :
    gives (step (queued (loaded ham15 [0x27]) [.writeReg 5 0xFF])) [0x27] 0x00 = true := by decide
/-- "`BUF.SETBIT 13, 1` is `W2=0x0D W3=0x01 W0=0x06`" (30_encoding.md R60). -/
theorem test_expand_setbit :
    AsmLine.expand (.bufSetbit 13 1) = [.writeReg 2 0x0D, .writeReg 3 0x01, .writeReg 0 0x06] := by
  decide
/-- Program P3, line 4 (`BUF.FLIPBIT 10`, RDATA read as 1). -/
theorem test_expand_flipbit :
    AsmLine.expand (.bufFlipbit 10 true) =
      [.writeReg 2 0x0A, .writeReg 0 0x05, .writeReg 2 0x0A, .writeReg 3 0x00, .writeReg 0 0x06] := by
  decide

/-! ### Witnesses: states that meet the hypotheses of the statements, each clause at a boundary -/

theorem witness_StepRunsDecodedCommand :
    decode 0x22#8 = .command .hamVerify ∧
    (queued State.reset [.writeReg 0 0x22]).pending = [.writeReg 0 (0x22#8 : Byte).toNat] ∧
    decodeTableWord 8 0x22 = some .hamVerify := by decide
theorem witness_IllegalWordsChangeOnlyStatus :
    (0x00#8 : Byte) ∉ commandWords ∧ (0xFF#8 : Byte) ∉ commandWords ∧
    (queued State.reset [.writeReg 0 0xFF]).pending = [.writeReg 0 (0xFF#8 : Byte).toNat] ∧
    (queued State.reset [.writeReg 0 0xFF]).status.halted = false := by decide
theorem witness_IdleStepChangesNothing : State.reset.pending = [] := by decide
theorem witness_ResetLeavesSpecValues :
    (queued haltedState [.reset]).pending = [.reset] := by decide
theorem witness_HostReadsRegisterFile :
    (queued State.reset [.readReg 12]).pending = [.readReg 12] ∧
    (queued State.reset [.readReg 13]).pending = [.readReg 13] := by decide
theorem witness_HostWritesOnlyOperandRegisters :
    (queued (loaded narrow []) [.writeReg 2 15]).pending = [.writeReg 2 15] ∧
    Instance.fitsIdx narrow 15 = true ∧ Instance.fitsIdx narrow 16 = false ∧
    (queued State.reset [.writeReg 3 255]).pending = [.writeReg 3 255] ∧
    (queued State.reset [.writeReg 3 256]).pending = [.writeReg 3 256] ∧
    (queued State.reset [.writeReg 5 256]).pending = [.writeReg 5 256] := by decide
theorem witness_ClearEmptiesBuffer : (loaded ham15 [0x31]).status.halted = false := by decide
theorem witness_PushAppendsData :
    (loaded capped [0x31]).status.halted = false ∧ (loaded capped [0x31]).mem.wf ∧
    Instance.capOk capped ((loaded capped [0x31]).len + 1) = true ∧
    (loaded capped [0x31, 0x32]).mem.wf ∧
    Instance.capOk capped ((loaded capped [0x31, 0x32]).len + 1) = false := by decide
/-- The last byte, and the first index past it. -/
theorem witness_ReadByteReturnsAddressedByte :
    (loaded ham15 [0xD6, 0x4E] 1).status.halted = false ∧ (loaded ham15 [0xD6, 0x4E] 1).mem.wf ∧
    (loaded ham15 [0xD6, 0x4E] 1).idx < (loaded ham15 [0xD6, 0x4E] 1).len ∧
    (loaded ham15 [0xD6, 0x4E] 2).mem.wf ∧
    (loaded ham15 [0xD6, 0x4E] 2).len ≤ (loaded ham15 [0xD6, 0x4E] 2).idx := by decide
theorem witness_WriteByteReplacesOneByte :
    (loaded ham15 [0x7F, 0x7F] 1 0x7E).status.halted = false ∧
    (loaded ham15 [0x7F, 0x7F] 1 0x7E).mem.wf ∧
    (loaded ham15 [0x7F, 0x7F] 1 0x7E).idx < (loaded ham15 [0x7F, 0x7F] 1 0x7E).len ∧
    (loaded ham15 [0x7F, 0x7F] 2 0x7E).status.halted = false ∧
    (loaded ham15 [0x7F, 0x7F] 2 0x7E).mem.wf ∧
    (loaded ham15 [0x7F, 0x7F] 2 0x7E).len ≤ (loaded ham15 [0x7F, 0x7F] 2 0x7E).idx := by decide
/-- The last bit, and the first bit past it. -/
theorem witness_GetBitReadsZeroBeyondEnd :
    (loaded ham15 [0x00, 0x80] 15).status.halted = false ∧ (loaded ham15 [0x00, 0x80] 15).mem.wf ∧
    (loaded ham15 [0x00, 0x80] 15).buf[15 / 8]? = some 0x80#8 ∧
    (loaded ham15 [0x00, 0x80] 15).idx / 8 < (loaded ham15 [0x00, 0x80] 15).len ∧
    (loaded ham15 [0x00, 0x80] 16).len ≤ (loaded ham15 [0x00, 0x80] 16).idx / 8 := by decide
theorem witness_SetBitWritesOneBit :
    (loaded ham15 [0x00, 0x00] 15 0x01).status.halted = false ∧
    (loaded ham15 [0x00, 0x00] 15 0x01).mem.wf ∧
    (loaded ham15 [0x00, 0x00] 15 0x01).idx / 8 < (loaded ham15 [0x00, 0x00] 15 0x01).len ∧
    (loaded ham15 [0x00, 0x00] 16 0x01).status.halted = false ∧
    (loaded ham15 [0x00, 0x00] 16 0x01).mem.wf ∧
    (loaded ham15 [0x00, 0x00] 16 0x01).len ≤ (loaded ham15 [0x00, 0x00] 16 0x01).idx / 8 := by
  decide
/-- A capacity just reached. -/
theorem witness_CrcInitAppendsTwoZeroBytes :
    (loaded capped []).status.halted = false ∧ (loaded capped []).mem.wf ∧
    Instance.capOk capped ((loaded capped []).len + 2) = true := by decide
theorem witness_CrcRoundTripRestoresPayload :
    (loaded ham15 [0x31]).status.halted = false ∧
    Instance.capOk (loaded ham15 [0x31]).inst ((loaded ham15 [0x31]).len + 2) = true := by decide
/-- Lengths 2 and 1. -/
theorem witness_CrcComputeStoresChecksumBigEndian :
    (loaded ham15 [0x00, 0x00]).status.halted = false ∧ (loaded ham15 [0x00, 0x00]).mem.wf ∧
    2 ≤ (loaded ham15 [0x00, 0x00]).len ∧ (loaded ham15 [0x5A]).mem.wf ∧
    (loaded ham15 [0x5A]).len < 2 := by decide
/-- Lengths 2 and 1. -/
theorem witness_CrcVerifyStripsAndReports :
    (loaded ham15 [0x00, 0x01]).status.halted = false ∧ (loaded ham15 [0x00, 0x01]).mem.wf ∧
    2 ≤ (loaded ham15 [0x00, 0x01]).len ∧ (loaded ham15 [0x5A]).status.halted = false ∧
    (loaded ham15 [0x5A]).mem.wf ∧ (loaded ham15 [0x5A]).len < 2 := by decide
/-- The frame of V-C5 with its last bit index, bit 7 of the last byte, flipped. -/
theorem witness_CrcDetectsEverySingleBitFlip :
    (loaded ham15 [0x31, 0x38, 0xFD]).status.halted = false ∧
    23 < 8 * ([0x31#8].length + 2) ∧
    (loaded ham15 [0x31, 0x38, 0xFD]).buf = flipBit (crcFrame [0x31]) 23 := by decide +kernel
theorem witness_DerivedSizesOfLegalInstances :
    ham3.wf ∧ ham3.n = 2 ∧ Instance.hamming74.wf ∧ 3 ≤ Instance.hamming74.n := by decide
/-- The two buffers differ in a parity bit and the padding bit alone. -/
theorem witness_ParityIsXorOfCoveredDataPositions :
    Instance.hamming74.wf ∧ 2 < Instance.hamming74.n ∧
    ∀ pos, isDataPos .hamming74 pos →
      wordBit .hamming74 [0x74#8] 0 pos = wordBit .hamming74 [0xF5#8] 0 pos :=
  ⟨by decide, by decide, fun pos h =>
    (by decide : ∀ p, p < 8 → isDataPos .hamming74 p →
      wordBit .hamming74 [0x74#8] 0 p = wordBit .hamming74 [0xF5#8] 0 p)
      pos (Nat.lt_succ_of_le h.2.1) h⟩
/-- A capacity just reached. -/
theorem witness_HamInitSpreadsPayloadBits :
    (loaded capped [0xFF]).inst.wf ∧ (loaded capped [0xFF]).status.halted = false ∧
    Instance.bitsFit capped (loaded capped [0xFF]).len = true ∧
    Instance.bitsFit capped (encodedLen capped (loaded capped [0xFF]).len) = true ∧
    Instance.capOk capped (encodedLen capped (loaded capped [0xFF]).len) = true := by decide
theorem witness_HamRoundTripRestoresPayload :
    (loaded ham15 [0xA5, 0x3C, 0x7E]).inst.wf ∧
    (loaded ham15 [0xA5, 0x3C, 0x7E]).status.halted = false ∧
    Instance.bitsFit ham15 (loaded ham15 [0xA5, 0x3C, 0x7E]).len = true ∧
    Instance.bitsFit ham15 (encodedLen ham15 (loaded ham15 [0xA5, 0x3C, 0x7E]).len) = true ∧
    Instance.capOk ham15 (encodedLen ham15 (loaded ham15 [0xA5, 0x3C, 0x7E]).len) = true := by decide
/-- A length that is a multiple of WORDBYTES, and one that is not. -/
theorem witness_HamComputeStoresParityOnly :
    ham15.wf ∧ (loaded ham15 [0x24, 0x0A]).status.halted = false ∧
    (loaded ham15 [0x24, 0x0A]).len % ham15.wordbytes = 0 ∧
    Instance.bitsFit ham15 (loaded ham15 [0x24, 0x0A]).len = true ∧
    (loaded ham15 [0x24]).len % ham15.wordbytes ≠ 0 := by decide
/-- 4-bit indices: the 8 bits of one byte fit. -/
theorem witness_HamComputeLeavesCodeWords :
    (loaded narrow [0x24]).inst.wf ∧ (loaded narrow [0x24]).status.halted = false ∧
    (loaded narrow [0x24]).len % narrow.wordbytes = 0 ∧
    Instance.bitsFit narrow (loaded narrow [0x24]).len = true := by decide
theorem witness_HamVerifyCorrectsAndExtracts :
    (loaded ham15 [0x2C, 0x4A]).inst.wf ∧ (loaded ham15 [0x2C, 0x4A]).status.halted = false ∧
    (loaded ham15 [0x2C, 0x4A]).len % ham15.wordbytes = 0 ∧
    Instance.bitsFit ham15 (loaded ham15 [0x2C, 0x4A]).len = true ∧
    (loaded ham15 [0x27]).inst.wf ∧ (loaded ham15 [0x27]).status.halted = false ∧
    (loaded ham15 [0x27]).len % ham15.wordbytes ≠ 0 := by decide
theorem witness_SyndromeIsXorOfOnePositions : Instance.hamming74.wf := by decide
theorem witness_InternalInconsistencyNeverFires :
    (loaded ham3 [0x03]).inst.wf ∧ (loaded ham3 [0x03]).status.halted = false ∧
    ∃ t, exec .hamVerify (loaded ham3 [0x03]) = .next t := ⟨by decide, by decide, _, rfl⟩
/-- The last position of the word, and its padding bit. -/
theorem witness_FlippedBitShiftsSyndromeByItsPosition :
    ham15.wf ∧ 15 ≤ ham15.codebits ∧ ¬ 16 ≤ ham15.codebits ∧ 16 ≤ 8 * ham15.wordbytes ∧
    (wordBase ham15 1 + (16 - 1)) / 8 < [0x00#8, 0x00, 0x00, 0x00].length := by decide
theorem witness_HamCorrectsEverySingleBitFlip :
    (loaded .hamming74 [0x7F, 0x2D]).inst.wf ∧ (loaded .hamming74 [0x7F, 0x2D]).status.halted = false ∧
    (loaded .hamming74 [0x7F, 0x2D]).len % Instance.hamming74.wordbytes = 0 ∧
    Instance.bitsFit .hamming74 (loaded .hamming74 [0x7F, 0x2D]).len = true ∧
    (∀ w, w < (loaded .hamming74 [0x7F, 0x2D]).len / Instance.hamming74.wordbytes →
      syndrome .hamming74 (loaded .hamming74 [0x7F, 0x2D]).buf w = 0) ∧
    14 < 8 * (loaded .hamming74 [0x7F, 0x2D]).len ∧
    14 % (8 * Instance.hamming74.wordbytes) < Instance.hamming74.codebits := by decide
/-- The first and the last position of the second word; the third is 14. -/
theorem witness_HamDoubleFlipMiscorrectsAtXor :
    (loaded ham15 [0x2C, 0x4A, 0x00, 0x00]).inst.wf ∧
    (loaded ham15 [0x2C, 0x4A, 0x00, 0x00]).status.halted = false ∧
    (loaded ham15 [0x2C, 0x4A, 0x00, 0x00]).len % ham15.wordbytes = 0 ∧
    Instance.bitsFit ham15 (loaded ham15 [0x2C, 0x4A, 0x00, 0x00]).len = true ∧
    1 < (loaded ham15 [0x2C, 0x4A, 0x00, 0x00]).len / ham15.wordbytes ∧
    IsCodeWord ham15 (loaded ham15 [0x2C, 0x4A, 0x00, 0x00]).buf 1 ∧
    15 ≤ ham15.codebits ∧ (1 : Nat) ≠ 15 := by decide
/-- An instance that construction cannot build (R121). -/
theorem witness_InternalInconsistencyHaltsAndFreesBuffer :
    ¬ illegal2.wf ∧ (loaded illegal2 [0x03]).status.halted = false ∧
    (loaded illegal2 [0x03]).len % illegal2.wordbytes = 0 ∧
    Instance.bitsFit illegal2 (loaded illegal2 [0x03]).len = true ∧
    hamVerifyBuf illegal2 (loaded illegal2 [0x03]).buf = none := by decide
theorem witness_CommandsKeepOperandRegisters :
    Instr.bufPush ≠ .bufRdbyte ∧ Instr.bufPush ≠ .bufGetbit ∧
    ∃ t, exec .bufPush (loaded ham15 [0x31]) = .next t := ⟨by decide, by decide, _, rfl⟩
/-- A refusal, and an instance with no OPEN limit. -/
theorem witness_EveryCommandEnds :
    exec .bufPush (loaded capped [0x31, 0x32]) = .refused .overCapacity ∧
    (loaded ham15 [0x31]).inst.bufCap = none ∧ (loaded ham15 [0x31]).inst.idxw = none :=
  ⟨rfl, rfl, rfl⟩
theorem witness_ErrorsAreRaisedExactlyWhereStated :
    (loaded ham15 [0x24]).status.halted = false ∧ (loaded ham15 [0x24]).mem.wf ∧
    (loaded ham15 [0x24]).len % ham15.wordbytes ≠ 0 ∧ (loaded ham15 [0x24]).len < 2 ∧
    (loaded ham15 [0x24] 1).len ≤ (loaded ham15 [0x24] 1).idx ∧
    (loaded ham15 [0x24] 8).len ≤ (loaded ham15 [0x24] 8).idx / 8 ∧
    (∃ t, exec .crcCompute (loaded ham15 [0x24]) = .next t ∧ t.status.err = .invalidState) ∧
    ∃ t, exec .bufSetbit (loaded ham15 [0x24] 8) = .next t ∧ t.status.err = .indexOutOfRange :=
  ⟨by decide, by decide, by decide, by decide, by decide, by decide, ⟨_, rfl, rfl⟩, _, rfl, rfl⟩
theorem witness_FailingCommandsArePrecise :
    (loaded ham15 [0x24]).status.halted = false ∧
    (∃ t, exec .hamVerify (loaded ham15 [0x24]) = .next t ∧ t.status.err = .invalidState) ∧
    ∃ t, exec .hamVerify (loaded illegal2 [0x03]) = .next t ∧
      t.status.err = .internalInconsistency := ⟨by decide, ⟨_, rfl, rfl⟩, _, rfl, rfl⟩
theorem witness_ResultIsSetOnlyByVerify :
    (loaded ham15 [0x00, 0x00]).status.halted = false ∧
    ∃ t, exec .crcVerify (loaded ham15 [0x00, 0x00]) = .next t ∧ t.status.result = true :=
  ⟨by decide, _, rfl, by decide +kernel⟩
/-- CRC.VERIFY at 2 bytes and at 1, and HAM.VERIFY of one word. -/
theorem witness_LengthChangesOnlyAsStated :
    ham15.wf ∧ (loaded ham15 [0x00, 0x00]).status.halted = false ∧
    (∃ t, exec .crcVerify (loaded ham15 [0x00, 0x00]) = .next t ∧ t.status.err = .noError) ∧
    (∃ t, exec .crcVerify (loaded ham15 [0x00]) = .next t ∧ t.status.err = .noError) ∧
    ∃ t, exec .hamVerify (loaded ham15 [0x00, 0x00]) = .next t ∧ t.status.err = .noError :=
  ⟨by decide, by decide, ⟨_, rfl, rfl⟩, ⟨_, rfl, rfl⟩, _, rfl, rfl⟩
theorem witness_CodecCommandsArePure :
    Instr.hamVerify ∈ [Instr.crcInit, .crcCompute, .crcVerify, .hamInit, .hamCompute, .hamVerify] ∧
    (loaded ham15 [0x27, 0x0A] 3 0x11).inst.wf ∧
    (loaded ham15 [0x27, 0x0A] 7 0x22).inst = (loaded ham15 [0x27, 0x0A] 3 0x11).inst ∧
    (loaded ham15 [0x27, 0x0A] 7 0x22).mem = (loaded ham15 [0x27, 0x0A] 3 0x11).mem ∧
    (loaded ham15 [0x27, 0x0A] 3 0x11).status.halted = false ∧
    (loaded ham15 [0x27, 0x0A] 7 0x22).status.halted = false ∧
    ∃ t, exec .hamVerify (loaded ham15 [0x27, 0x0A] 3 0x11) = .next t :=
  ⟨by decide, by decide, by decide, by decide, by decide, by decide, _, rfl⟩
theorem witness_HaltedFreezesUntilReset :
    haltedState.status.halted = true ∧
    (queued haltedState [.writeReg 0 0x01]).pending = [.writeReg 0 (0x01#8 : Byte).toNat] ∧
    (queued haltedState [.readReg 1]).pending = [.readReg 1] ∧
    (queued haltedState [.reset]).pending = [.reset] ∧
    ∃ t, step (queued haltedState [.load [0x31]]) = .next t :=
  ⟨by decide, by decide, by decide, by decide, _, rfl⟩
theorem witness_HostLoadIsClearThenPushes :
    Instance.capOk (loaded capped [0x7F]).inst [0x31#8, 0x32].length = true ∧
    (loaded capped [0x7F]).status.halted = false := by decide
theorem witness_HostBufferReads :
    (loaded ham15 [0x31, 0x32]).mem.wf ∧
    (queued (loaded ham15 [0x31, 0x32]) [.readByte 1]).pending = [.readByte 1] ∧
    (loaded ham15 [0x31, 0x32]).buf[1]? = some 0x32#8 ∧
    (queued (loaded ham15 [0x31, 0x32]) [.readByte 2]).pending = [.readByte 2] ∧
    (loaded ham15 [0x31, 0x32]).len ≤ 2 ∧
    (queued (loaded ham15 [0x31, 0x32]) [.readBit 16]).pending = [.readBit 16] := by decide
theorem witness_CapacityRefusals :
    (loaded capped [0x31, 0x32]).status.halted = false ∧ capped.wf ∧
    Instance.capOk capped 2 = true ∧ Instance.capOk capped (2 + 1) = false ∧
    Instance.capOk capped (1 + 2) = false ∧ Instance.bitsFit capped 2 = true ∧
    Instance.bitsFit capped (encodedLen capped 2) = true ∧
    Instance.capOk capped (encodedLen capped 2) = false ∧
    (queued (loaded capped []) [.load [0x31, 0x32, 0x33]]).pending = [.load [0x31, 0x32, 0x33]] ∧
    Instance.capOk capped [0x31#8, 0x32, 0x33].length = false ∧
    (∃ t, exec .bufClear (loaded capped [0x31, 0x32]) = .next t) :=
  ⟨by decide, by decide, by decide, by decide, by decide, by decide, by decide, by decide,
    by decide, by decide, _, rfl⟩
/-- 4-bit indices: 8 bit indices of one byte fit, the 16 of two bytes do not. -/
theorem witness_IndexWidthRefusals :
    (loaded narrow [0x7F, 0x7F]).status.halted = false ∧ Instance.bitsFit narrow 1 = true ∧
    Instance.bitsFit narrow 2 = false ∧ Instance.bitsFit narrow (encodedLen narrow 1) = false ∧
    (loaded narrow [0x7F, 0x7F]).len % narrow.wordbytes = 0 := by decide
theorem witness_InvariantHoldsAtReset : ham3.wf := by decide
theorem witness_StepKeepsInvariant :
    (queued (loaded ham15 [0x27, 0x0A]) [.writeReg 0 0x22]).Inv ∧
    ∃ t, step (queued (loaded ham15 [0x27, 0x0A]) [.writeReg 0 0x22]) = .next t :=
  ⟨by decide, _, rfl⟩
theorem witness_StepKeepsStatusCoherent :
    haltedState.StatusCoherent ∧ (queued State.reset [.writeReg 0 0x10]).StatusCoherent ∧
    ∃ t, step (queued State.reset [.writeReg 0 0x10]) = .next t := ⟨by decide, by decide, _, rfl⟩
theorem witness_ReachableStatesAreNeverHalted :
    ham15.wf ∧ Reachable ham15 ((State.resetOf ham15).setPending [.load [0x27], .writeReg 0 0x22]) :=
  ⟨by decide, Reachable.start _⟩

end Sys2Proof.Tests
end

/-! ## The state's registers: lemmas and proofs (10_state.md) -/

namespace Sys2Proof

/-! ### The derived sizes (10_state.md R11, 43_hamming.md R111) -/

/-- A code word of `2 ^ N - 1` bits has room for its `N` parity bits and one data bit. -/
theorem add_two_le_two_pow {n : Nat} (h : 2 ≤ n) : n + 2 ≤ 2 ^ n := by
  induction n, h using Nat.le_induction with
  | base => decide
  | succ n _ ih => rw [pow_succ]; omega

theorem Instance.wf_sizes_of_n_eq_two {c : Instance} (h : c.wf) (hn : c.n = 2) :
    c.paddingbits = 5 ∧ c.wordbytes = 1 := by
  obtain ⟨-, -, hcode, -, hpad, hbytes⟩ := h
  rw [hn] at hcode
  omega

/-- From `N = 3` on, `CODEBITS + 1` is a multiple of 8. -/
theorem Instance.wf_sizes_of_three_le_n {c : Instance} (h : c.wf) (hn : 3 ≤ c.n) :
    c.paddingbits = 1 ∧ c.wordbytes = 2 ^ (c.n - 3) := by
  obtain ⟨-, -, hcode, -, hpad, hbytes⟩ := h
  have hpow : 2 ^ c.n = 2 ^ (c.n - 3) * 2 ^ 3 := (Nat.pow_sub_mul_pow 2 hn).symm
  have hpos : 0 < 2 ^ (c.n - 3) := Nat.two_pow_pos _
  omega

/-- A code word is its data bits and its parity bits. -/
theorem Instance.wf_databits_add_n {c : Instance} (h : c.wf) : c.databits + c.n = c.codebits := by
  obtain ⟨hn, -, hcode, hdata, -⟩ := h
  have := add_two_le_two_pow hn
  omega

theorem Instance.wf_one_le_databits {c : Instance} (h : c.wf) : 1 ≤ c.databits := by
  obtain ⟨hn, -, hcode, hdata, -⟩ := h
  have := add_two_le_two_pow hn
  omega

/-- A code word and its padding fill whole bytes. -/
theorem Instance.wf_eight_mul_wordbytes {c : Instance} (h : c.wf) :
    8 * c.wordbytes = c.codebits + c.paddingbits := by
  obtain ⟨-, -, -, -, hpad, hbytes⟩ := h
  omega

/-- Settles O28: `2 ^ N` is 4, or a multiple of 8. -/
theorem derivedSizesOfLegalInstances : Obligations.DerivedSizesOfLegalInstances :=
  fun _ h => ⟨Instance.wf_sizes_of_n_eq_two h, Instance.wf_sizes_of_three_le_n h,
    Instance.wf_one_le_databits h, Instance.wf_databits_add_n h, Instance.wf_eight_mul_wordbytes h⟩

theorem Instance.hamming74_wf : Instance.hamming74.wf := by decide

end Sys2Proof

namespace Sys2Proof.Machine

/-! ### What a command can do to the registers -/

/-- The next states a command can answer, by what it writes: nothing while HALTED (R152); STATUS
with an error (R150); RDATA, by the two buffer reads only (R14); the buffer, reporting RESULT only
from the two verifies (R15); or what an abandoned `HAM.VERIFY` leaves (R146). -/
inductive CommandEffect (i : Instr) (s : State) : State → Prop where
  | frozen (hh : s.status.halted = true) : CommandEffect i s s
  | raised (hh : s.status.halted = false) (e : ErrKind)
      (he : e = .invalidState ∨ e = .indexOutOfRange) : CommandEffect i s (s.raise e)
  | rdataWritten (hh : s.status.halted = false) (hi : i = .bufRdbyte ∨ i = .bufGetbit)
      (v : Byte) : CommandEffect i s ((s.setRdata v).finish false)
  | bufferWritten (hh : s.status.halted = false) (m : Memory) (r : Bool)
      (hr : r = true → i = .crcVerify ∨ i = .hamVerify) :
      CommandEffect i s (State.finish { s with mem := m } r)
  | abandoned (hh : s.status.halted = false) (hi : i = .hamVerify) : CommandEffect i s s.abandon

/-- A command other than the verifies that writes the buffer reports no RESULT. -/
theorem CommandEffect.bufferWritten_false {i : Instr} {s : State} (hh : s.status.halted = false)
    (m : Memory) : CommandEffect i s (State.finish { s with mem := m } false) :=
  .bufferWritten hh m false (fun h => Bool.noConfusion h)

/-- While HALTED every command answers the state as it is (R152). -/
theorem exec_of_halted (i : Instr) {s : State} (hh : s.status.halted = true) :
    exec i s = .next s := by
  cases i <;> exact State.whenRunning_of_halted hh _

/-- The inversion of `exec` over all twelve commands. -/
theorem exec_effect {i : Instr} {s t : State} (h : exec i s = .next t) : CommandEffect i s t := by
  cases hh : s.status.halted with
  | true =>
    rw [exec_of_halted i hh] at h
    cases h
    exact .frozen hh
  | false =>
    cases i with
    | bufClear =>
      obtain rfl := exec_bufClear_next hh h
      exact .bufferWritten_false hh _
    | bufPush =>
      obtain ⟨-, rfl⟩ := exec_bufPush_next hh h
      exact .bufferWritten_false hh _
    | bufRdbyte =>
      obtain ⟨b, -, rfl⟩ | ⟨-, rfl⟩ := exec_bufRdbyte_next hh h
      · exact .rdataWritten hh (.inl rfl) b
      · exact .raised hh _ (.inr rfl)
    | bufWrbyte =>
      obtain ⟨-, rfl⟩ | ⟨-, rfl⟩ := exec_bufWrbyte_next hh h
      · exact .bufferWritten_false hh _
      · exact .raised hh _ (.inr rfl)
    | bufGetbit =>
      obtain rfl := exec_bufGetbit_next hh h
      exact .rdataWritten hh (.inr rfl) _
    | bufSetbit =>
      obtain ⟨-, rfl⟩ | ⟨-, rfl⟩ := exec_bufSetbit_next hh h
      · exact .bufferWritten_false hh _
      · exact .raised hh _ (.inr rfl)
    | crcInit =>
      obtain ⟨-, rfl⟩ := exec_crcInit_next hh h
      exact .bufferWritten_false hh _
    | crcCompute =>
      obtain ⟨-, rfl⟩ | ⟨-, rfl⟩ := exec_crcCompute_next hh h
      · exact .raised hh _ (.inl rfl)
      · exact .bufferWritten_false hh _
    | crcVerify =>
      obtain ⟨-, rfl⟩ | ⟨-, rfl⟩ := exec_crcVerify_next hh h
      · exact .bufferWritten_false hh _
      · exact .bufferWritten hh _ _ (fun _ => .inl rfl)
    | hamInit =>
      obtain ⟨-, rfl⟩ := exec_hamInit_next hh h
      exact .bufferWritten_false hh _
    | hamCompute =>
      obtain ⟨-, rfl⟩ | ⟨-, rfl⟩ := exec_hamCompute_next hh h
      · exact .raised hh _ (.inl rfl)
      · exact .bufferWritten_false hh _
    | hamVerify =>
      obtain ⟨-, rfl⟩ | ⟨-, out, -, rfl⟩ | ⟨-, -, rfl⟩ := exec_hamVerify_next hh h
      · exact .raised hh _ (.inl rfl)
      · exact .bufferWritten hh _ _ (fun _ => .inr rfl)
      · exact .abandoned hh rfl

/-- Settles O40: no effect of a command touches an operand register, the configuration or the
host's fields, and RDATA is written by the two buffer reads only. -/
theorem commandsKeepOperandRegisters : Obligations.CommandsKeepOperandRegisters := by
  intro i s t h
  cases exec_effect h with
  | frozen hh => simp
  | raised hh e he => simp
  | rdataWritten hh hi v =>
    refine ⟨rfl, rfl, rfl, rfl, rfl, fun hRd hGet => ?_⟩
    exact absurd hi (not_or.mpr ⟨hRd, hGet⟩)
  | bufferWritten hh m r hr => simp
  | abandoned hh hi =>
    obtain ⟨-, hinst, hidx, hdata, hrdata, hpending, hread, -⟩ := State.abandon_frame s
    exact ⟨hidx, hdata, hinst, hpending, hread, fun _ _ => hrdata⟩

/-- Settles O43: an error clears RESULT, and only the verifies end with a RESULT of their own. -/
theorem resultIsSetOnlyByVerify : Obligations.ResultIsSetOnlyByVerify := by
  intro i s t hrun h hres
  cases exec_effect h with
  | frozen hh => simp [hrun] at hh
  | raised hh e he => simp at hres
  | rdataWritten hh hi v => simp at hres
  | bufferWritten hh m r hr => exact ⟨hr hres, rfl⟩
  | abandoned hh hi => simp [(State.abandon_frame s).1] at hres

/-! ### Register writes (10_state.md R14, R23) -/

/-- A byte written to `CMD` is run as a command word. -/
@[simp] theorem hostWrite_cmd (w : Byte) (s : State) :
    hostWrite 0 w.toNat s = runCommandWord w s := by
  simp [hostWrite, w.isLt]

theorem runCommandWord_of_decode {w : Byte} {i : Instr} (h : decode w = .command i) (s : State) :
    runCommandWord w s = exec i s := by
  simp [runCommandWord, h]

theorem hostWrite_idx {v : Nat} {s : State} (h : Instance.fitsIdx s.inst v = true) :
    hostWrite 2 v s = .next (s.setIdx v) := by
  simp [hostWrite, h]

theorem hostWrite_data {v : Nat} (s : State) (h : v < 256) :
    hostWrite 3 v s = .next (s.setData (BitVec.ofNat 8 v)) := by
  simp [hostWrite, h]

/-- Read-only and unassigned registers ignore a write (R23). -/
theorem hostWrite_ignored {n : Nat} (v : Nat) (s : State) (h0 : n ≠ 0) (h2 : n ≠ 2) (h3 : n ≠ 3) :
    hostWrite n v s = .next s := by
  unfold hostWrite
  split
  · exact absurd rfl h0
  · exact absurd rfl h2
  · exact absurd rfl h3
  · rfl

theorem hostWrite_idx_tooWide {v : Nat} {s : State} (h : Instance.fitsIdx s.inst v = false) :
    hostWrite 2 v s = .refused .valueTooWide := by
  simp [hostWrite, h]

/-- `CMD` and DATA are one byte wide (log 8). -/
theorem hostWrite_byte_tooWide {n v : Nat} (s : State) (hn : n = 0 ∨ n = 3) (h : 256 ≤ v) :
    hostWrite n v s = .refused .valueTooWide := by
  obtain rfl | rfl := hn <;> simp [hostWrite, Nat.not_lt.mpr h]

/-- A pending write of a byte to `CMD` that decodes to a command is that command. -/
theorem step_of_pending_command {s : State} {w : Byte} {i : Instr} {rest : List HostAction}
    (hw : decode w = .command i) (hp : s.pending = .writeReg 0 w.toNat :: rest) :
    step s = exec i (s.setPending rest) := by
  rw [step_of_pending hp, hostStep, hostWrite_cmd, runCommandWord_of_decode hw]

theorem decodeTableWord_eq_some {nbits w : Nat} {i : Instr} :
    decodeTableWord nbits w = some i ↔ decode (tableWord nbits w) = .command i := by
  cases h : decode (tableWord nbits w) <;> simp [decodeTableWord, h]

/-- Settles O3: a placed command word is the host's next write to `CMD`. -/
theorem stepRunsDecodedCommand : Obligations.StepRunsDecodedCommand := by
  refine ⟨fun s w i rest hw hp => step_of_pending_command hw hp, fun s nbits w i hi => ?_⟩
  have hp : (s.withFetchWord nbits w).pending =
      .writeReg 0 (tableWord nbits w).toNat :: s.pending := rfl
  exact step_of_pending_command (decodeTableWord_eq_some.mp hi) hp

/-- Settles O8: each clause is one branch of the host's register write. -/
theorem hostWritesOnlyOperandRegisters : Obligations.HostWritesOnlyOperandRegisters := by
  intro s n v rest hp
  rw [step_of_pending hp, hostStep]
  refine ⟨?idx, ?data, ?ignored, ?tooWide⟩
  case idx =>
    rintro rfl hv
    exact hostWrite_idx hv
  case data =>
    rintro rfl hv
    exact hostWrite_data _ hv
  case ignored => exact hostWrite_ignored v _
  case tooWide =>
    rintro (⟨rfl, hv⟩ | ⟨hn, hv⟩)
    · exact hostWrite_idx_tooWide hv
    · exact hostWrite_byte_tooWide _ hn hv

/-! ### Register reads (10_state.md R15, R23) -/

/-- The register file as one chain of tests of the register number. -/
theorem State.readReg_eq (s : State) (n : Nat) :
    s.readReg n =
      if n = 1 then s.status.word.toNat else if n = 2 then s.idx else if n = 3 then s.data.toNat
      else if n = 4 then s.rdata.toNat else if n = 5 then s.buf.length
      else if n = 8 then s.inst.codebits else if n = 9 then s.inst.n
      else if n = 10 then s.inst.databits else if n = 11 then s.inst.paddingbits
      else if n = 12 then s.inst.wordbytes else 0 := by
  rw [State.buf_length]
  unfold State.readReg
  split
  case h_12 _ _ h1 h2 h3 h4 h5 h8 h9 h10 h11 h12 =>
    rw [if_neg h1, if_neg h2, if_neg h3, if_neg h4, if_neg h5, if_neg h8, if_neg h9, if_neg h10,
      if_neg h11, if_neg h12]
  all_goals rfl

/-- Settles O7: a host read hands over the register and changes nothing else. -/
theorem hostReadsRegisterFile : Obligations.HostReadsRegisterFile := by
  intro s n rest hp
  rw [step_of_pending hp, hostStep, State.readReg_eq]
  rfl

theorem Status.word_result (st : Status) : st.word.getLsbD 0 = st.result := by
  simp only [Status.word, BitVec.getLsbD_append]
  simp

theorem Status.word_err (st : Status) : st.word.extractLsb' 1 3 = st.err.code := by
  rw [Status.word, BitVec.extractLsb'_append_eq_of_add_le (by decide),
    BitVec.extractLsb'_append_eq_of_add_le (by decide),
    BitVec.extractLsb'_append_eq_of_le (by decide)]
  exact BitVec.extractLsb'_eq_self

theorem Status.word_halted (st : Status) : st.word.getLsbD 4 = st.halted := by
  simp only [Status.word, BitVec.getLsbD_append]
  simp

theorem Status.word_reserved (st : Status) : st.word.extractLsb' 5 3 = 0#3 := by
  rw [Status.word, BitVec.extractLsb'_append_eq_of_le (by decide)]
  exact BitVec.extractLsb'_eq_self

/-- Settles O9: the fields of the register, one by one, and the table of error codes. -/
theorem statusWordLayout : Obligations.StatusWordLayout :=
  ⟨fun st => ⟨st.word_result, st.word_err, st.word_halted, st.word_reserved⟩,
    rfl, rfl, rfl, rfl, rfl⟩

/-! ### Reset (10_state.md R21) -/

@[simp] theorem Instance.capOk_zero (c : Instance) : Instance.capOk c 0 = true := by
  cases h : c.bufCap <;> simp [Instance.capOk, h]

@[simp] theorem Instance.fitsIdx_zero (c : Instance) : Instance.fitsIdx c 0 = true := by
  cases h : c.idxw <;> simp [Instance.fitsIdx, h]

/-- Settles O6: every field of the reset table, by the definition of the reset state. -/
theorem resetLeavesSpecValues : Obligations.ResetLeavesSpecValues := by
  refine ⟨fun s rest hp => ?_, fun c => ⟨rfl, rfl, rfl, rfl, rfl, rfl, rfl⟩⟩
  rw [step_of_pending hp, hostStep, hostReset]
  exact ⟨_, rfl, rfl, rfl, rfl, rfl, rfl, rfl, rfl, rfl, rfl, rfl⟩

/-- Reset gives a good state. -/
theorem State.resetOf_inv {c : Instance} (h : c.wf) : (State.resetOf c).Inv :=
  ⟨h, rfl, Instance.capOk_zero c, Instance.fitsIdx_zero c, rfl,
    by simp [State.resetOf, Status.reset]⟩

/-- Settles O52: an empty buffer and `IDX = 0` are within every limit. -/
theorem invariantHoldsAtReset : Obligations.InvariantHoldsAtReset :=
  ⟨fun _ h => State.resetOf_inv h, State.resetOf_inv Instance.hamming74_wf⟩

end Sys2Proof.Machine

/-! ## The buffer's length and capacity: lemmas and proofs (20_memory.md) -/

namespace Sys2Proof.Machine

/-- Settles O5: the idle branch of the step. -/
theorem idleStepChangesNothing : Obligations.IdleStepChangesNothing :=
  fun _ hp => step_of_idle hp

/-! ### The length a command leaves (20_memory.md R36, 41_codec_contract.md R85) -/

/-- LEN after a command that runs and ends without error, one equation per command. -/
def lenAfter (i : Instr) (s : State) : Nat :=
  match i with
  | .bufClear => 0
  | .bufPush => s.len + 1
  | .crcInit => s.len + 2
  | .crcVerify => if 2 ≤ s.len then s.len - 2 else s.len
  | .hamInit => encodedLen s.inst s.len
  | .hamVerify => ceilDiv (s.len / s.inst.wordbytes * s.inst.databits) 8
  | .bufRdbyte | .bufWrbyte | .bufGetbit | .bufSetbit | .crcCompute | .hamCompute => s.len

/-- The commands that can make the buffer longer, the ones tested against `BUF_CAP` (log 2). -/
abbrev IsGrowing (i : Instr) : Prop := i = .bufPush ∨ i = .crcInit ∨ i = .hamInit

/-- What a command that runs can do to LEN: the stated length, within `BUF_CAP` where the command
grows the buffer; the length as it was, with a non-fatal error (R150); or what an abandoned
`HAM.VERIFY` leaves (R146). -/
inductive LengthEffect (i : Instr) (s t : State) : Prop where
  | ended (hlen : t.len = lenAfter i s) (herr : t.status.err = .noError)
      (hcap : IsGrowing i → Instance.capOk s.inst t.len = true)
  | raised (hlen : t.len = s.len) (herr : t.status.err ≠ .noError)
  | abandoned (ht : t = s.abandon)

/-- A command that does not grow the buffer owes nothing to the capacity test. -/
theorem LengthEffect.ended_of_not_growing {i : Instr} {s t : State} (hi : ¬ IsGrowing i)
    (hlen : t.len = lenAfter i s) (herr : t.status.err = .noError) : LengthEffect i s t :=
  .ended hlen herr (fun hg => absurd hg hi)

theorem LengthEffect.of_raise (i : Instr) (s : State) {e : ErrKind} (he : e ≠ .noError) :
    LengthEffect i s (s.raise e) :=
  .raised rfl he

/-- The lengths of all twelve commands. -/
theorem exec_lengthEffect {i : Instr} {s t : State} (hh : s.status.halted = false)
    (h : exec i s = .next t) : LengthEffect i s t := by
  cases i with
  | bufClear =>
    obtain rfl := exec_bufClear_next hh h
    exact .ended_of_not_growing (by decide) rfl rfl
  | bufPush =>
    obtain ⟨hc, rfl⟩ := exec_bufPush_next hh h
    exact .ended (by simp [lenAfter]) rfl (fun _ => by simpa using hc)
  | bufRdbyte =>
    obtain ⟨b, -, rfl⟩ | ⟨-, rfl⟩ := exec_bufRdbyte_next hh h
    · exact .ended_of_not_growing (by decide) rfl rfl
    · exact .of_raise _ s (by decide)
  | bufWrbyte =>
    obtain ⟨-, rfl⟩ | ⟨-, rfl⟩ := exec_bufWrbyte_next hh h
    · exact .ended_of_not_growing (by decide) (by simp [lenAfter]) rfl
    · exact .of_raise _ s (by decide)
  | bufGetbit =>
    obtain rfl := exec_bufGetbit_next hh h
    exact .ended_of_not_growing (by decide) rfl rfl
  | bufSetbit =>
    obtain ⟨-, rfl⟩ | ⟨-, rfl⟩ := exec_bufSetbit_next hh h
    · exact .ended_of_not_growing (by decide) (by simp [lenAfter]) rfl
    · exact .of_raise _ s (by decide)
  | crcInit =>
    obtain ⟨hc, rfl⟩ := exec_crcInit_next hh h
    exact .ended (by simp [lenAfter]) rfl (fun _ => by simpa using hc)
  | crcCompute =>
    obtain ⟨-, rfl⟩ | ⟨-, rfl⟩ := exec_crcCompute_next hh h
    · exact .of_raise _ s (by decide)
    · exact .ended_of_not_growing (by decide) (by simp [lenAfter]) rfl
  | crcVerify =>
    obtain ⟨hl, rfl⟩ | ⟨hl, rfl⟩ := exec_crcVerify_next hh h
    · exact .ended_of_not_growing (by decide) (by simp [lenAfter, Nat.not_le.mpr hl]) rfl
    · exact .ended_of_not_growing (by decide) (by simp [lenAfter, hl]) rfl
  | hamInit =>
    obtain ⟨hc, rfl⟩ := exec_hamInit_next hh h
    exact .ended (by simp [lenAfter]) rfl (fun _ => by simpa using hc)
  | hamCompute =>
    obtain ⟨-, rfl⟩ | ⟨-, rfl⟩ := exec_hamCompute_next hh h
    · exact .of_raise _ s (by decide)
    · exact .ended_of_not_growing (by decide) (by simp [lenAfter]) rfl
  | hamVerify =>
    obtain ⟨-, rfl⟩ | ⟨-, out, ho, rfl⟩ | ⟨-, -, rfl⟩ := exec_hamVerify_next hh h
    · exact .of_raise _ s (by decide)
    · exact .ended_of_not_growing (by decide) (by simp [lenAfter, hamVerifyBuf_length ho]) rfl
    · exact .abandoned rfl

/-- A command that runs and ends without error leaves the stated length. -/
theorem exec_len {i : Instr} {s t : State} (hh : s.status.halted = false)
    (h : exec i s = .next t) (herr : t.status.err = .noError) : t.len = lenAfter i s := by
  cases exec_lengthEffect hh h with
  | ended hlen => exact hlen
  | raised _ hne => exact absurd herr hne
  | abandoned ht => simp [ht, (State.abandon_frame s).1] at herr

/-- Settles O44: the chain of tests is the length of each command. -/
theorem lengthChangesOnlyAsStated : Obligations.LengthChangesOnlyAsStated := by
  intro i s t _ hh h herr
  rw [exec_len hh h herr]
  cases i <;> simp [lenAfter, initWords]

/-! ### The capacity (20_memory.md R41; log 2) -/

/-- A shorter buffer is within `BUF_CAP` too. -/
theorem Instance.capOk_of_le {c : Instance} {m n : Nat} (hle : m ≤ n)
    (hn : Instance.capOk c n = true) : Instance.capOk c m = true := by
  cases hcap : c.bufCap with
  | none => simp [Instance.capOk, hcap]
  | some cap =>
    simp only [Instance.capOk, hcap, decide_eq_true_eq] at hn ⊢
    omega

/-- The payload of whole code words is never longer than the words: `DATABITS <= 8 * WORDBYTES`. -/
theorem payloadLen_le {c : Instance} (h : c.wf) (len : Nat) :
    ceilDiv (len / c.wordbytes * c.databits) 8 ≤ len := by
  have hword : c.databits ≤ 8 * c.wordbytes := by
    have := Instance.wf_databits_add_n h
    have := Instance.wf_eight_mul_wordbytes h
    omega
  have hbits : len / c.wordbytes * c.databits ≤ 8 * len :=
    calc len / c.wordbytes * c.databits
        ≤ len / c.wordbytes * (8 * c.wordbytes) := Nat.mul_le_mul_left _ hword
      _ = 8 * (len / c.wordbytes * c.wordbytes) := Nat.mul_left_comm _ _ _
      _ ≤ 8 * len := Nat.mul_le_mul_left _ (Nat.div_mul_le_self _ _)
  rw [ceilDiv]
  omega

/-- Every command but the three growing ones leaves the buffer no longer than it was. -/
theorem lenAfter_le {i : Instr} {s : State} (hwf : s.inst.wf) (hi : ¬ IsGrowing i) :
    lenAfter i s ≤ s.len := by
  cases i with
  | bufPush | crcInit | hamInit => simp at hi
  | bufClear => exact Nat.zero_le _
  | crcVerify => simp only [lenAfter]; split <;> omega
  | hamVerify => exact payloadLen_le hwf _
  | bufRdbyte | bufWrbyte | bufGetbit | bufSetbit | crcCompute | hamCompute => exact Nat.le_refl _

/-- The free buffer of an abandoned `HAM.VERIFY` is within `BUF_CAP` (log 6). -/
theorem State.abandon_capOk (s : State) : Instance.capOk s.inst s.abandon.len = true := by
  have hlen : s.abandon.len = (Instance.cut s.inst (Config.freeBuffer s.freeCount)).length :=
    Memory.ofBytes_length _
  rw [hlen]
  exact Instance.cut_capOk _ _

/-- A command keeps the configuration (10_state.md R11). -/
theorem exec_inst {i : Instr} {s t : State} (h : exec i s = .next t) : t.inst = s.inst := by
  obtain ⟨-, -, hinst, -⟩ := commandsKeepOperandRegisters i s t h
  exact hinst

/-- Under a legal configuration a command keeps the buffer within `BUF_CAP`. -/
theorem exec_keeps_capOk {i : Instr} {s t : State} (hh : s.status.halted = false)
    (hwf : s.inst.wf) (hcap : Instance.capOk s.inst s.len = true) (h : exec i s = .next t) :
    Instance.capOk t.inst t.len = true := by
  rw [exec_inst h]
  cases exec_lengthEffect hh h with
  | ended hlen _ hgrown =>
    by_cases hi : IsGrowing i
    · exact hgrown hi
    · exact Instance.capOk_of_le (hlen.trans_le (lenAfter_le hwf hi)) hcap
  | raised hlen => rwa [hlen]
  | abandoned ht => rw [ht]; exact s.abandon_capOk

theorem State.growTo_of_exceeds {s : State} {B : List Byte}
    (h : Instance.capOk s.inst B.length = false) : s.growTo B = .refused .overCapacity := by
  simp [State.growTo, h]

theorem exec_bufPush_of_running {s : State} (hh : s.status.halted = false) :
    exec .bufPush s = s.growTo (s.buf ++ [s.data]) :=
  State.whenRunning_of_running hh _

theorem exec_crcInit_of_running {s : State} (hh : s.status.halted = false) :
    exec .crcInit s = s.growTo (s.buf ++ zeros 2) :=
  State.whenRunning_of_running hh _

/-- `HAM.INIT` where the bit indices of both buffers fit. -/
theorem exec_hamInit_of_fits {s : State} (hh : s.status.halted = false)
    (hfit : Instance.bitsFit s.inst s.len = true)
    (hfit' : Instance.bitsFit s.inst (encodedLen s.inst s.len) = true) :
    exec .hamInit s = s.growTo (hamInitBuf s.inst s.buf) := by
  simp [exec, execHamInit, hh, hfit, hfit']

theorem hostLoad_of_exceeds {s : State} {B : List Byte}
    (h : Instance.capOk s.inst B.length = false) : hostLoad B s = .refused .overCapacity := by
  simp [hostLoad, h]

/-- Settles O49: growing beyond the capacity is refused, and no other command grows the buffer. -/
theorem capacityRefusals : Obligations.CapacityRefusals := by
  intro s hh
  refine ⟨?push, ?crcInit, ?hamInit, ?load, fun hwf hcap i t h => exec_keeps_capOk hh hwf hcap h⟩
  case push =>
    intro hc
    rw [exec_bufPush_of_running hh]
    exact State.growTo_of_exceeds (by simpa using hc)
  case crcInit =>
    intro hc
    rw [exec_crcInit_of_running hh]
    exact State.growTo_of_exceeds (by simpa using hc)
  case hamInit =>
    intro hfit hfit' hc
    rw [exec_hamInit_of_fits hh hfit hfit']
    exact State.growTo_of_exceeds (by simpa using hc)
  case load =>
    intro B rest hp hc
    rw [step_of_pending hp, hostStep]
    exact hostLoad_of_exceeds hc

end Sys2Proof.Machine

/-! ## The command word: lemmas and proofs (30_encoding.md) -/

namespace Sys2Proof

/-! ### The fields of a command word (30_encoding.md R55) -/

@[simp] theorem unitField_commandWord (unit op : BitVec 4) : unitField (commandWord unit op) = unit :=
  BitVec.extractLsb'_append_eq_left

@[simp] theorem opField_commandWord (unit op : BitVec 4) : opField (commandWord unit op) = op :=
  BitVec.extractLsb'_append_eq_right

/-- A word is nothing but its two fields. -/
theorem commandWord_fields (w : Byte) : commandWord (unitField w) (opField w) = w := by
  have happend : w.extractLsb' 4 4 ++ w.extractLsb' 0 4 = w.extractLsb' 0 8 :=
    BitVec.extractLsb'_append_extractLsb'_eq_extractLsb' rfl
  exact happend.trans BitVec.extractLsb'_eq_self

/-! ### Decoder and encoder are inverse (30_encoding.md R57, R59) -/

@[simp] theorem decode_encode (i : Instr) : decode (encode i) = .command i := by
  cases i <;> simp only [encode, decode, unitField_commandWord, opField_commandWord] <;> rfl

/-- An operation that unit 0 assigns has its command's word. -/
theorem encode_of_decodeBuf {op : BitVec 4} {i : Instr} (h : decodeBuf op = .command i) :
    encode i = commandWord 0 op := by
  unfold decodeBuf at h
  split at h <;> cases h <;> rfl

/-- An operation that unit 1 assigns has its command's word. -/
theorem encode_of_decodeCrc {op : BitVec 4} {i : Instr} (h : decodeCrc op = .command i) :
    encode i = commandWord 1 op := by
  unfold decodeCrc at h
  split at h <;> cases h <;> rfl

/-- An operation that unit 2 assigns has its command's word. -/
theorem encode_of_decodeHam {op : BitVec 4} {i : Instr} (h : decodeHam op = .command i) :
    encode i = commandWord 2 op := by
  unfold decodeHam at h
  split at h <;> cases h <;> rfl

/-- The encoding of what a word decodes to is the word: only units 0, 1 and 2 decode to commands. -/
theorem encode_of_decode {w : Byte} {i : Instr} (h : decode w = .command i) : encode i = w := by
  rw [← commandWord_fields w]
  unfold decode at h
  split at h
  case h_1 hunit => rw [hunit]; exact encode_of_decodeBuf h
  case h_2 hunit => rw [hunit]; exact encode_of_decodeCrc h
  case h_3 hunit => rw [hunit]; exact encode_of_decodeHam h
  case h_4 => cases h

theorem decode_eq_command_iff {w : Byte} {i : Instr} : decode w = .command i ↔ w = encode i :=
  ⟨fun h => (encode_of_decode h).symm, fun h => h ▸ decode_encode i⟩

/-- Settles O2: the encoder is a two-sided inverse of the decoder on the command words. -/
theorem decodeAndEncodeAgree : Obligations.DecodeAndEncodeAgree :=
  fun _ _ => decode_eq_command_iff

/-! ### The opcode map (30_encoding.md R57) -/

/-- The twelve commands in the order of the opcode map. -/
def allCommands : List Instr :=
  [.bufClear, .bufPush, .bufRdbyte, .bufWrbyte, .bufGetbit, .bufSetbit,
    .crcInit, .crcCompute, .crcVerify, .hamInit, .hamCompute, .hamVerify]

@[simp] theorem mem_allCommands (i : Instr) : i ∈ allCommands := by
  cases i <;> decide

/-- The rows of the opcode map that the encoder gives. -/
theorem mem_map_encode_iff {w : Byte} {i : Instr} :
    (w, i) ∈ allCommands.map (fun j => (encode j, j)) ↔ w = encode i := by
  simp [eq_comm]

/-- Settles O1: the numeric rows of the opcode map are the encoder's rows. -/
theorem commandTableDecodes : Obligations.CommandTableDecodes :=
  fun _ _ => decode_eq_command_iff.trans mem_map_encode_iff.symm

end Sys2Proof

namespace Sys2Proof.Machine

/-! ### The illegal words (30_encoding.md R58, 60_exceptions.md R147) -/

theorem commandWords_eq_map_encode : commandWords = allCommands.map encode := by
  decide

/-- A word off the opcode map is rejected. -/
theorem decode_rejected_of_not_mem {w : Byte} (h : w ∉ commandWords) :
    ∃ r, decode w = .rejected r := by
  cases hw : decode w with
  | rejected r => exact ⟨r, rfl⟩
  | command i =>
    rw [commandWords_eq_map_encode, ← encode_of_decode hw] at h
    exact absurd (List.mem_map_of_mem (mem_allCommands i)) h

theorem runCommandWord_of_rejected {w : Byte} {r : Reject} (h : decode w = .rejected r)
    (s : State) : runCommandWord w s = s.illegalCommand := by
  simp [runCommandWord, h]

/-- An illegal command raises its error and nothing else while running (R147). -/
theorem State.illegalCommand_of_running {s : State} (hh : s.status.halted = false) :
    s.illegalCommand = .next (s.raise .illegalCommand) :=
  State.whenRunning_of_running hh _

/-- The numbers of the bytes in a list are, up to order, the list's own bytes as numbers. -/
theorem filter_range_mem_perm {ws : List Byte} (h : ws.Nodup) :
    ((List.range 256).filter (fun v => decide (BitVec.ofNat 8 v ∈ ws))).Perm
      (ws.map BitVec.toNat) := by
  have hmap : (ws.map BitVec.toNat).Nodup := h.map (fun _ _ => BitVec.eq_of_toNat_eq)
  refine (List.perm_ext_iff_of_nodup (List.nodup_range.filter _) hmap).mpr fun v => ?_
  simp only [List.mem_filter, List.mem_range, decide_eq_true_eq, List.mem_map]
  constructor
  · rintro ⟨hv, hmem⟩
    exact ⟨_, hmem, by simpa using hv⟩
  · rintro ⟨w, hmem, rfl⟩
    exact ⟨w.isLt, by simpa using hmem⟩

/-- Of the 256 byte values, all but a list's own are off the list. -/
theorem length_filter_range_not_mem {ws : List Byte} (h : ws.Nodup) :
    ((List.range 256).filter (fun v => decide (BitVec.ofNat 8 v ∉ ws))).length =
      256 - ws.length := by
  have hin := (filter_range_mem_perm h).length_eq
  have hsplit := List.length_eq_length_filter_add (l := List.range 256)
    (fun v => decide (BitVec.ofNat 8 v ∈ ws))
  simp only [List.length_map, List.length_range, decide_not] at *
  omega

theorem commandWords_nodup : commandWords.Nodup := by
  decide

/-- An illegal word written to `CMD` while not halted. -/
theorem step_of_pending_illegal {s : State} {w : Byte} {rest : List HostAction}
    (hw : w ∉ commandWords) (hp : s.pending = .writeReg 0 w.toNat :: rest)
    (hh : s.status.halted = false) :
    step s = .next ((s.setPending rest).raise .illegalCommand) := by
  obtain ⟨r, hr⟩ := decode_rejected_of_not_mem hw
  rw [step_of_pending hp, hostStep, hostWrite_cmd, runCommandWord_of_rejected hr]
  exact State.illegalCommand_of_running hh

/-- Raised while running, an error other than the fatal one does not halt (R150). -/
theorem Status.raised_eq_errStatus {st : Status} {e : ErrKind} (hh : st.halted = false)
    (he : e ≠ .internalInconsistency) : st.raised e = errStatus e := by
  simp [Status.raised, hh, he]

/-- Settles O4: there are twelve command words, and a word off the opcode map only raises. -/
theorem illegalWordsChangeOnlyStatus : Obligations.IllegalWordsChangeOnlyStatus := by
  refine ⟨length_filter_range_not_mem commandWords_nodup, fun s w rest hw hp hh => ?_⟩
  have hstatus : (s.setPending rest).status.raised .illegalCommand = errStatus .illegalCommand :=
    Status.raised_eq_errStatus hh (by decide)
  rw [step_of_pending_illegal hw hp hh, State.raise_eq, hstatus]
  rfl

end Sys2Proof.Machine

/-! ## The buffer controller: lemmas and proofs (40_buffer.md) -/

namespace Sys2Proof.Machine

/-! ### Each command while it runs (R70 to R75) -/

/-- A running command that ends without error, its buffer and registers those of `u`
(10_state.md R15). -/
theorem State.whenRunning_eq_ended {s u : State} {k : Answer} {r : Bool}
    (hh : s.status.halted = false) (hu : u.status = s.status) (hk : k = .next (u.finish r)) :
    s.whenRunning k = .next { u with status := okStatus r } := by
  have hended : u.status.ended r = okStatus r := by simp [Status.ended, hu, hh]
  rw [State.whenRunning_of_running hh, hk, ← hended]
  rfl

/-- A running command that raises a non-fatal error (60_exceptions.md R150). -/
theorem State.whenRunning_eq_raised {s : State} {k : Answer} {e : ErrKind}
    (hh : s.status.halted = false) (he : e ≠ .internalInconsistency)
    (hk : k = .next (s.raise e)) :
    s.whenRunning k = .next { s with status := errStatus e } := by
  rw [State.whenRunning_of_running hh, hk, State.raise_eq, Status.raised_eq_errStatus hh he]

section
variable {s : State} (hh : s.status.halted = false)
include hh

theorem exec_bufClear_of_running :
    exec .bufClear s = .next { s with mem := [], status := okStatus false } :=
  State.whenRunning_eq_ended (u := s.setBuf []) hh rfl rfl

theorem exec_bufPush_of_fits (hc : Instance.capOk s.inst (s.len + 1) = true) :
    exec .bufPush s = .next
      { s with mem := Memory.ofBytes (s.buf ++ [s.data]), status := okStatus false } :=
  State.whenRunning_eq_ended (u := s.setBuf (s.buf ++ [s.data])) hh rfl
    (State.growTo_of_fits (by simpa using hc))

theorem exec_bufRdbyte_of_byte {b : Byte} (hb : s.mem.read s.idx = some b) :
    exec .bufRdbyte s = .next { s with rdata := b, status := okStatus false } :=
  State.whenRunning_eq_ended (u := s.setRdata b) hh rfl (by simp only [State.byteIndex, hb])

theorem exec_bufRdbyte_of_no_byte (hb : s.mem.read s.idx = none) :
    exec .bufRdbyte s = .next { s with status := errStatus .indexOutOfRange } :=
  State.whenRunning_eq_raised hh (by decide) (by simp only [State.byteIndex, hb])

theorem exec_bufWrbyte_of_lt (hi : s.idx < s.len) :
    exec .bufWrbyte s = .next
      { s with mem := s.mem.write s.idx s.data, status := okStatus false } :=
  State.whenRunning_eq_ended (u := s.memWrite s.idx s.data) hh rfl (if_neg (Nat.not_le.mpr hi))

theorem exec_bufWrbyte_of_le (hi : s.len ≤ s.idx) :
    exec .bufWrbyte s = .next { s with status := errStatus .indexOutOfRange } :=
  State.whenRunning_eq_raised hh (by decide) (if_pos hi)

theorem exec_bufGetbit_of_running :
    exec .bufGetbit s = .next
      { s with rdata := bitByte (getBitOrZero s.buf s.idx), status := okStatus false } :=
  State.whenRunning_eq_ended (u := s.setRdata (bitByte (getBitOrZero s.buf s.idx))) hh rfl rfl

theorem exec_bufSetbit_of_lt (hi : s.idx / 8 < s.len) :
    exec .bufSetbit s = .next
      { s with mem := Memory.ofBytes (setBit s.buf s.idx (s.data.getLsbD 0)),
               status := okStatus false } :=
  State.whenRunning_eq_ended (u := s.setBuf (setBit s.buf s.idx (s.data.getLsbD 0))) hh rfl
    (if_neg (Nat.not_le.mpr hi))

theorem exec_bufSetbit_of_le (hi : s.len ≤ s.idx / 8) :
    exec .bufSetbit s = .next { s with status := errStatus .indexOutOfRange } :=
  State.whenRunning_eq_raised hh (by decide) (if_pos hi)

end

/-! ### Bytes and bits of the buffer -/

/-- In canonical form a byte exists at every address below `LEN`. -/
theorem Memory.mem_addresses_iff {m : Memory} (h : m.wf) {a : Nat} :
    a ∈ m.map Prod.fst ↔ a < m.length := by
  have haddr : m.map Prod.fst = List.range m.length := h
  rw [haddr, List.mem_range]

theorem State.read_eq_buf {s : State} (h : s.mem.wf) (a : Nat) : s.mem.read a = s.buf[a]? :=
  Memory.read_eq h a

/-- `SetBit` leaves every byte but the one that holds the bit. -/
theorem getElem?_setBit_of_ne {B : List Byte} {i a : Nat} (v : Bool) (h : a ≠ i / 8) :
    (setBit B i v)[a]? = B[a]? :=
  List.getElem?_modify_ne _ _ h.symm

theorem getBitOrZero_of_getElem? {B : List Byte} {i : Nat} {b : Byte} (h : B[i / 8]? = some b) :
    getBitOrZero B i = b.getLsbD (i % 8) := by
  simp [getBitOrZero, h]

/-- Settles O15: `SetBit` is one bit of one byte, and the canonical form reads back as the vector. -/
theorem setBitWritesOneBit : Obligations.SetBitWritesOneBit := by
  refine fun s hh hwf => ⟨fun hi => ?_, exec_bufSetbit_of_le hh⟩
  refine ⟨_, exec_bufSetbit_of_lt hh hi, rfl, rfl, ?len, ?bits, ?bytes⟩
  case len => simp [State.len, State.buf]
  case bits =>
    intro j
    rw [← getBitOrZero_setBit _ _ _ _ (by simpa using hi)]
    simp [State.buf]
  case bytes =>
    intro a ha
    rw [Memory.read_ofBytes, getElem?_setBit_of_ne _ ha, State.read_eq_buf hwf]

/-! ### The host's load and the run it stands for (R76, 30_encoding.md R60) -/

/-- The host actions that push each byte of `B`. -/
def pushActions (B : List Byte) : List HostAction :=
  B.flatMap (fun b => [.writeReg 3 b.toNat, .writeReg 0 0x02])

/-- The first step of a run that answers a next state. -/
theorem run_succ_of_step {s s' : State} (h : step s = .next s') (k : Nat) :
    Host.Core.run Sys2Proof.core (k + 1) s = Host.Core.run Sys2Proof.core k s' := by
  have hcore : Sys2Proof.core.step s = .next s' := h
  simp only [Host.Core.run, hcore]

/-- The state after DATA <- `b` and `BUF.PUSH`, the actions `rest` remaining. -/
def State.afterPush (s : State) (b : Byte) (rest : List HostAction) : State :=
  { s with mem := Memory.ofBytes (s.buf ++ [b]), data := b, status := okStatus false,
           pending := rest }

@[simp] theorem State.afterPush_buf (s : State) (b : Byte) (rest : List HostAction) :
    (s.afterPush b rest).buf = s.buf ++ [b] := Memory.bytes_ofBytes _

@[simp] theorem State.afterPush_len (s : State) (b : Byte) (rest : List HostAction) :
    (s.afterPush b rest).len = s.len + 1 := by
  rw [← State.buf_length, State.afterPush_buf, List.length_append, State.buf_length]
  rfl

theorem step_of_pending_data {s : State} {b : Byte} {rest : List HostAction}
    (hp : s.pending = .writeReg 3 b.toNat :: rest) :
    step s = .next ((s.setPending rest).setData b) := by
  rw [step_of_pending hp, hostStep, hostWrite_data _ b.isLt, BitVec.ofNat_toNat, BitVec.setWidth_eq]

/-- The two steps that push one byte. -/
theorem run_push {s : State} {b : Byte} {rest : List HostAction} (hh : s.status.halted = false)
    (hc : Instance.capOk s.inst (s.len + 1) = true)
    (hp : s.pending = .writeReg 3 b.toNat :: .writeReg 0 0x02 :: rest) (k : Nat) :
    Host.Core.run Sys2Proof.core (k + 2) s =
      Host.Core.run Sys2Proof.core k (s.afterPush b rest) := by
  have hpush : step ((s.setPending (.writeReg 0 0x02 :: rest)).setData b) =
      .next (s.afterPush b rest) :=
    (step_of_pending_command (decode_encode .bufPush) rfl).trans (exec_bufPush_of_fits hh hc)
  rw [run_succ_of_step (step_of_pending_data hp), run_succ_of_step hpush]

/-- Pushing the bytes of `B` in order appends `B`. -/
theorem run_pushActions (B : List Byte) : ∀ {s : State}, s.status = okStatus false → s.mem.wf →
    Instance.capOk s.inst (s.len + B.length) = true → s.pending = pushActions B →
    ∃ t : State, Host.Core.run Sys2Proof.core (pushActions B).length s = .next t ∧
      t.mem = Memory.ofBytes (s.buf ++ B) ∧ t.status = okStatus false ∧ t.rdata = s.rdata ∧
      t.idx = s.idx := by
  induction B with
  | nil =>
    intro s hst hwf _ _
    refine ⟨s, rfl, ?_, hst, rfl, rfl⟩
    rw [List.append_nil]
    exact (Memory.ofBytes_bytes hwf).symm
  | cons b B ih =>
    intro s hst hwf hc hp
    have hfirst : Instance.capOk s.inst (s.len + 1) = true := Instance.capOk_of_le (by simp) hc
    have hrest : Instance.capOk s.inst ((s.afterPush b (pushActions B)).len + B.length) = true := by
      rwa [State.afterPush_len, Nat.add_right_comm]
    obtain ⟨t, hrun, hmem, hregs⟩ :=
      ih (s := s.afterPush b (pushActions B)) rfl (Memory.ofBytes_wf _) hrest rfl
    rw [State.afterPush_buf, List.append_assoc] at hmem
    exact ⟨t, (run_push (by rw [hst]) hfirst hp _).trans hrun, hmem, hregs⟩

theorem hostLoad_of_fits {s : State} {B : List Byte}
    (h : Instance.capOk s.inst B.length = true) : hostLoad B s = .next (s.setBuf B) := by
  simp [hostLoad, h]

/-- The state after `BUF.CLEAR`, the actions `rest` remaining. -/
def State.afterClear (s : State) (rest : List HostAction) : State :=
  { s with mem := [], status := okStatus false, pending := rest }

theorem step_of_pending_clear {s : State} {rest : List HostAction} (hh : s.status.halted = false)
    (hp : s.pending = .writeReg 0 0x01 :: rest) : step s = .next (s.afterClear rest) :=
  (step_of_pending_command (decode_encode .bufClear) hp).trans
    (exec_bufClear_of_running (s := s.setPending rest) hh)

/-- Settles O47: the load is its own branch; the run is one step for the clear, then an induction
over the pushed bytes. -/
theorem hostLoadIsClearThenPushes : Obligations.HostLoadIsClearThenPushes := by
  intro s B hc
  refine ⟨?load, Memory.bytes_ofBytes B, fun hh => ?run⟩
  case load =>
    rw [step_of_pending rfl, hostStep]
    exact hostLoad_of_fits hc
  case run =>
    have hcap : Instance.capOk s.inst (0 + B.length) = true := by simpa using hc
    have hclear : step (s.setPending (.writeReg 0 0x01 :: pushActions B)) =
        .next (s.afterClear (pushActions B)) :=
      step_of_pending_clear (s := s.setPending (.writeReg 0 0x01 :: pushActions B)) hh rfl
    obtain ⟨t, hrun, ht⟩ :=
      run_pushActions B (s := s.afterClear (pushActions B)) rfl rfl hcap rfl
    exact ⟨t, (run_succ_of_step hclear _).trans hrun, ht⟩

/-! ### The commands of one byte (R70 to R74) -/

/-- Settles O10: the running branch of `BUF.CLEAR`. -/
theorem clearEmptiesBuffer : Obligations.ClearEmptiesBuffer :=
  fun _ hh => exec_bufClear_of_running hh

/-- Settles O11: the canonical form of the longer vector, read address by address. -/
theorem pushAppendsData : Obligations.PushAppendsData := by
  intro s hh hwf
  refine ⟨fun hc => ?_, fun hc => ?_⟩
  · refine ⟨_, exec_bufPush_of_fits hh hc, rfl, rfl, Memory.bytes_ofBytes _, ?len, ?new, ?old⟩
    case len => simp [State.len, State.buf]
    case new => simp [Memory.read_ofBytes, ← State.buf_length]
    case old =>
      intro a ha
      rw [Memory.read_ofBytes, State.read_eq_buf hwf]
      obtain hlt | hgt := Nat.lt_or_gt_of_ne ha
      · exact List.getElem?_append_left (by simpa using hlt)
      · rw [List.getElem?_eq_none (by simpa using hgt),
          List.getElem?_eq_none (by simpa using hgt.le)]
  · rw [exec_bufPush_of_running hh]
    exact State.growTo_of_exceeds (by simpa using hc)

/-- Settles O12: a byte exists exactly below LEN. -/
theorem readByteReturnsAddressedByte : Obligations.ReadByteReturnsAddressedByte := by
  refine fun s hh hwf => ⟨fun hi => ?_, fun hi => ?_⟩
  · have hb : s.buf[s.idx]? = some (s.buf[s.idx]'(by simpa using hi)) :=
      List.getElem?_eq_getElem _
    exact ⟨_, hb, exec_bufRdbyte_of_byte hh ((State.read_eq_buf hwf _).trans hb)⟩
  · exact exec_bufRdbyte_of_no_byte hh ((Memory.read_eq_none hwf _).mpr hi)

/-- Settles O13: a write to an address that exists is read back there and nowhere else. -/
theorem writeByteReplacesOneByte : Obligations.WriteByteReplacesOneByte := by
  refine fun s hh hwf => ⟨fun hi => ?_, exec_bufWrbyte_of_le hh⟩
  exact ⟨_, exec_bufWrbyte_of_lt hh hi, rfl, rfl, Memory.write_length _ _ _,
    Memory.read_write_eq _ ((Memory.mem_addresses_iff hwf).mpr hi),
    fun _ ha => Memory.read_write_ne _ _ ha⟩

/-- Settles O14: the two branches of `GetBitOrZero`. -/
theorem getBitReadsZeroBeyondEnd : Obligations.GetBitReadsZeroBeyondEnd := by
  refine fun s hh => ⟨fun b hb => ?_, fun hi => ?_⟩
  · rw [exec_bufGetbit_of_running hh, getBitOrZero_of_getElem? hb, bitByte]
  · rw [exec_bufGetbit_of_running hh, getBitOrZero_of_le (by simpa using hi)]
    rfl

/-! ### The host's reads of the buffer (R76, 20_memory.md R37) -/

theorem hostReadByte_of_byte {s : State} {k : Nat} {b : Byte} (h : s.mem.read k = some b) :
    hostReadByte k s = .next (s.setHostRead b.toNat) := by
  simp [hostReadByte, h]

theorem hostReadByte_of_no_byte {s : State} {k : Nat} (h : s.mem.read k = none) :
    hostReadByte k s = .fault .noSuchByte := by
  simp [hostReadByte, h]

/-- Settles O48: the byte read by the address, the bit read by its definition. -/
theorem hostBufferReads : Obligations.HostBufferReads := by
  refine fun s k rest hwf => ⟨fun b hp hb => ?_, fun hp hk => ?_, fun hp => ?_⟩
  · rw [step_of_pending hp, hostStep]
    exact hostReadByte_of_byte ((State.read_eq_buf hwf k).trans hb)
  · rw [step_of_pending hp, hostStep]
    exact hostReadByte_of_no_byte ((Memory.read_eq_none hwf k).mpr hk)
  · exact step_of_pending hp

end Sys2Proof.Machine

/-! ## The codec commands as functions of the buffer: lemmas and proofs (41_codec_contract.md) -/

namespace Sys2Proof.Machine

/-! ### The syndrome stays within the code word (43_hamming.md R117, R118, R121) -/

theorem accBit_lt_two_pow {v : Acc} {k : Nat} (b : Bool) (hv : v.toNat < 2 ^ k) :
    (accBit v k b).toNat < 2 ^ (k + 1) := by
  have hlt : 2 ^ k < 2 ^ (k + 1) := Nat.pow_lt_pow_right (by decide) (Nat.lt_succ_self k)
  cases b with
  | false => exact hv.trans hlt
  | true =>
    have hbit : (1#32 <<< k).toNat ≤ 2 ^ k :=
      (BitVec.toNat_twoPow 32 k).trans_le (Nat.mod_le _ _)
    simpa [accBit] using Nat.or_lt_two_pow (hv.trans hlt) (hbit.trans_lt hlt)

/-- A vector of `n` parity bits is a number below `2 ^ n`. -/
theorem foldl_accBit_lt_two_pow (f : Nat → Bool) (n : Nat) :
    ((List.range n).foldl (fun v k => accBit v k (f k)) 0#32).toNat < 2 ^ n := by
  induction n with
  | zero => simp
  | succ n ih =>
    rw [List.range_succ, List.foldl_append]
    exact accBit_lt_two_pow (f n) ih

theorem syndrome_lt_two_pow (c : Instance) (B : List Byte) (w : Nat) :
    syndrome c B w < 2 ^ c.n := by
  rw [syndrome, BitVec.toNat_xor]
  exact Nat.xor_lt_two_pow (foldl_accBit_lt_two_pow _ _) (foldl_accBit_lt_two_pow _ _)

/-- A legal code word has `2 ^ N - 1` bits, so no syndrome names a position beyond it (R121). -/
theorem syndrome_le_codebits {c : Instance} (h : c.wf) (B : List Byte) (w : Nat) :
    syndrome c B w ≤ c.codebits := by
  obtain ⟨-, -, hcode, -⟩ := h
  have hlt := syndrome_lt_two_pow c B w
  omega

theorem verifyWord_of_wf {c : Instance} (h : c.wf) (a : VerifyAcc) (w : Nat) :
    ∃ a', verifyWord c a w = some a' :=
  ⟨_, if_neg (Nat.not_lt.mpr (syndrome_le_codebits h a.buf w))⟩

theorem verifyWords_of_wf {c : Instance} (h : c.wf) (ws : List Nat) :
    ∀ a, ∃ a', verifyWords c ws a = some a' := by
  induction ws with
  | nil => exact fun a => ⟨a, rfl⟩
  | cons w ws ih =>
    intro a
    obtain ⟨a₁, h₁⟩ := verifyWord_of_wf h a w
    simpa only [verifyWords, h₁] using ih a₁

/-- Under a legal configuration `HAM.VERIFY` has a payload for every buffer (R121). -/
theorem hamVerifyBuf_of_wf {c : Instance} (h : c.wf) (B : List Byte) :
    ∃ out, hamVerifyBuf c B = some out := by
  obtain ⟨a, ha⟩ := verifyWords_of_wf h (List.range (B.length / c.wordbytes))
    { buf := B, out := zeros (ceilDiv (B.length / c.wordbytes * c.databits) 8), o := 0 }
  exact ⟨a.out, by simp only [hamVerifyBuf, ha]⟩

/-! ### Two states a codec command cannot tell apart (41_codec_contract.md R84) -/

/-- Two running states of one instance with one buffer. -/
structure SameCodecInput (s s' : State) : Prop where
  inst : s'.inst = s.inst
  mem : s'.mem = s.mem
  running : s.status.halted = false
  running' : s'.status.halted = false

/-- Two answers with the same buffer and STATUS, or the same refusal. -/
inductive SameCodecOutput : Answer → Answer → Prop where
  | next {t t' : State} (hmem : t'.mem = t.mem) (hstatus : t'.status = t.status) :
      SameCodecOutput (.next t) (.next t')
  | refused (r : Refusal) : SameCodecOutput (.refused r) (.refused r)

/-- Two commands that take the same branch agree when the branches do. -/
theorem SameCodecOutput.ite {p : Prop} [Decidable p] {a a' b b' : Answer}
    (ha : SameCodecOutput a a') (hb : SameCodecOutput b b') :
    SameCodecOutput (if p then a else b) (if p then a' else b') := by
  split
  · exact ha
  · exact hb

theorem SameCodecOutput.next_of_next {a a' : Answer} {t : State} (h : SameCodecOutput a a')
    (ha : a = .next t) : ∃ t', a' = .next t' ∧ t'.mem = t.mem ∧ t'.status = t.status := by
  cases h with
  | next hmem hstatus =>
    cases ha
    exact ⟨_, rfl, hmem, hstatus⟩
  | refused r => cases ha

namespace SameCodecInput

variable {s s' : State} (h : SameCodecInput s s')
include h

theorem buf : s'.buf = s.buf := by
  rw [State.buf, h.mem, State.buf]

theorem len : s'.len = s.len := by
  rw [State.len, h.mem, State.len]

theorem halted : s'.status.halted = s.status.halted :=
  h.running'.trans h.running.symm

theorem setBuf (B : List Byte) : SameCodecInput (s.setBuf B) (s'.setBuf B) :=
  ⟨h.inst, rfl, h.running, h.running'⟩

theorem memWrite (a : Nat) (v : Byte) : SameCodecInput (s.memWrite a v) (s'.memWrite a v) :=
  ⟨h.inst, congrArg (·.write a v) h.mem, h.running, h.running'⟩

/-- Of the earlier STATUS only HALTED is kept, and both states run. -/
theorem finish (r : Bool) : SameCodecOutput (.next (s.finish r)) (.next (s'.finish r)) :=
  .next h.mem (by simp [Status.ended, h.halted])

theorem raise (e : ErrKind) : SameCodecOutput (.next (s.raise e)) (.next (s'.raise e)) :=
  .next h.mem (by simp [Status.raised, h.halted])

theorem growTo (B : List Byte) : SameCodecOutput (s.growTo B) (s'.growTo B) := by
  rw [State.growTo, State.growTo, h.inst]
  exact .ite ((h.setBuf B).finish false) (.refused _)

theorem whenRunning {k k' : Answer} (hk : SameCodecOutput k k') :
    SameCodecOutput (s.whenRunning k) (s'.whenRunning k') := by
  rwa [State.whenRunning_of_running h.running, State.whenRunning_of_running h.running']

/-! ### The six commands (42_crc16.md R94 to R96, 43_hamming.md R115 to R117) -/

theorem crcInit : SameCodecOutput (exec .crcInit s) (exec .crcInit s') := by
  simp only [exec, execCrcInit, h.buf]
  exact h.whenRunning (h.growTo _)

theorem crcCompute : SameCodecOutput (exec .crcCompute s) (exec .crcCompute s') := by
  simp only [exec, execCrcCompute, h.buf, h.len]
  exact h.whenRunning (.ite (h.raise _) (((h.memWrite _ _).memWrite _ _).finish _))

theorem crcVerify : SameCodecOutput (exec .crcVerify s) (exec .crcVerify s') := by
  simp only [exec, execCrcVerify, h.buf, h.len]
  exact h.whenRunning (.ite (h.finish _) ((h.setBuf _).finish _))

theorem hamInit : SameCodecOutput (exec .hamInit s) (exec .hamInit s') := by
  simp only [exec, execHamInit, h.buf, h.len, h.inst]
  exact h.whenRunning (.ite (h.growTo _) (.refused _))

theorem hamCompute : SameCodecOutput (exec .hamCompute s) (exec .hamCompute s') := by
  simp only [exec, execHamCompute, h.buf, h.len, h.inst]
  exact h.whenRunning (.ite (h.raise _) (.ite ((h.setBuf _).finish _) (.refused _)))

/-- The free buffer of an abandoned `HAM.VERIFY`, which may differ, takes an illegal instance. -/
theorem hamVerify (hwf : s.inst.wf) :
    SameCodecOutput (exec .hamVerify s) (exec .hamVerify s') := by
  obtain ⟨out, hout⟩ := hamVerifyBuf_of_wf hwf s.buf
  simp only [exec, execHamVerify, h.buf, h.len, h.inst, hout]
  exact h.whenRunning (.ite (h.raise _) (.ite ((h.setBuf _).finish _) (.refused _)))

end SameCodecInput

/-- Settles O45: each of the six commands takes the same branch from both states. -/
theorem codecCommandsArePure : Obligations.CodecCommandsArePure := by
  intro i s s' t hi hwf hinst hmem hrun hrun' ht
  have h : SameCodecInput s s' := ⟨hinst, hmem, hrun, hrun'⟩
  have hout : SameCodecOutput (exec i s) (exec i s') := by
    simp only [List.mem_cons, List.not_mem_nil, or_false] at hi
    obtain rfl | rfl | rfl | rfl | rfl | rfl := hi
    · exact h.crcInit
    · exact h.crcCompute
    · exact h.crcVerify
    · exact h.hamInit
    · exact h.hamCompute
    · exact h.hamVerify hwf
  exact hout.next_of_next ht

end Sys2Proof.Machine

/-! ## The CRC unit: lemmas and proofs (42_crc16.md) -/

namespace Sys2Proof.Machine

/-! ### The reflected byte (R91) -/

/-- Bit `t` of the reflected byte is bit `7 - t` of the byte. -/
theorem bitRev8_getLsbD (b : Byte) {t : Nat} (ht : t < 8) :
    (bitRev8 b).getLsbD t = b.getLsbD (7 - t) := by
  simp only [bitRev8, BitVec.getLsbD_append]
  interval_cases t <;> simp

theorem bitRev8_bitRev8 (b : Byte) : bitRev8 (bitRev8 b) = b := by
  apply BitVec.eq_of_getLsbD_eq
  intro t ht
  rw [bitRev8_getLsbD _ ht, bitRev8_getLsbD _ (by omega), Nat.sub_sub_self (by omega)]

/-- Settles O19: reflecting the bit index twice gives it back. -/
theorem bitRev8MirrorsTheByte : Obligations.BitRev8MirrorsTheByte :=
  fun b => ⟨fun _ ht => bitRev8_getLsbD b ht, bitRev8_bitRev8 b⟩

/-! ### One step of the shift register (R92) -/

/-- A step shifts the input bit in and adds the polynomial when bit 15 falls out. -/
theorem crcStep_eq_shiftConcat (reg : Word16) (b : Bool) :
    crcStep reg b = if reg.getLsbD 15 then reg.shiftConcat b ^^^ Config.crcPoly
      else reg.shiftConcat b := by
  have hshift : (reg <<< 1) ||| (BitVec.ofBool b).setWidth 16 = reg.shiftConcat b := by
    apply BitVec.eq_of_getLsbD_eq
    intro i hi
    rw [BitVec.getLsbD_shiftConcat]
    cases i with
    | zero => simp
    | succ i => simp [hi, BitVec.getLsbD_eq_getElem (show i < 16 by omega)]
  simp only [crcStep, hshift]

/-- The bits of the register after a step. -/
theorem crcStep_getLsbD (reg : Word16) (b : Bool) {i : Nat} (hi : i < 16) :
    (crcStep reg b).getLsbD i =
      ((if i = 0 then b else reg.getLsbD (i - 1)) ^^
        (reg.getLsbD 15 && Config.crcPoly.getLsbD i)) := by
  have hshift : (reg.shiftConcat b).getLsbD i = if i = 0 then b else reg.getLsbD (i - 1) := by
    rw [BitVec.getLsbD_shiftConcat, decide_eq_true hi, Bool.true_and]
  rw [crcStep_eq_shiftConcat, ← hshift]
  cases reg.getLsbD 15 with
  | false => simp
  | true => simp only [if_true, BitVec.getLsbD_xor, Bool.true_and]

/-- Settles O20: the shift is the doubling, and bit 15 the weight `2 ^ 15`. -/
theorem crcStepShiftsWithFeedback : Obligations.CrcStepShiftsWithFeedback := by
  intro reg b
  have hshift : (reg.shiftConcat b).toNat = (2 * reg.toNat + b.toNat) % 2 ^ 16 := by
    rw [BitVec.toNat_shiftConcat, Nat.shiftLeft_eq, pow_one, Nat.mul_comm]
  have hbit : reg.getLsbD 15 = decide (2 ^ 15 ≤ reg.toNat) := BitVec.getLsbD_last reg
  rw [crcStep_eq_shiftConcat, ← hshift, hbit]
  by_cases htop : 2 ^ 15 ≤ reg.toNat
  · rw [if_pos htop, if_pos (decide_eq_true htop), BitVec.toNat_xor]
    rfl
  · rw [if_neg htop, if_neg (by simpa using htop)]

/-- A step is linear over XOR, in the register and the input bit together. -/
theorem crcStep_xor (r r' : Word16) (b b' : Bool) :
    crcStep (r ^^^ r') (b ^^ b') = crcStep r b ^^^ crcStep r' b' := by
  apply BitVec.eq_of_getLsbD_eq
  intro i hi
  simp only [crcStep_getLsbD _ _ hi, BitVec.getLsbD_xor, Bool.and_xor_distrib_right]
  split <;> simp only [Bool.xor_assoc, Bool.xor_left_comm]

/-- Under one input bit a step loses nothing: the polynomial's bit 0 shows the bit that fell out. -/
theorem crcStep_injective (b : Bool) : Function.Injective (crcStep · b) := by
  intro r r' h
  have hbits : ∀ i < 16, (crcStep r b).getLsbD i = (crcStep r' b).getLsbD i := by
    intro i _
    exact congrArg (·.getLsbD i) h
  have htop : r.getLsbD 15 = r'.getLsbD 15 := by
    have h0 := hbits 0 (by decide)
    rw [crcStep_getLsbD _ _ (by decide), crcStep_getLsbD _ _ (by decide)] at h0
    simpa [Config.crcPoly] using h0
  apply BitVec.eq_of_getLsbD_eq
  intro i hi
  by_cases hi' : i = 15
  · rw [hi', htop]
  · have hi1 := hbits (i + 1) (by omega)
    rw [crcStep_getLsbD _ _ (by omega), crcStep_getLsbD _ _ (by omega), htop] at hi1
    simpa using hi1

/-- While a word still has a zero bit 15, shifting the next lower bit of it in meets no feedback. -/
theorem crcStep_ushiftRight (c : Word16) (k : Nat) :
    crcStep (c >>> (k + 1)) (c.getLsbD k) = c >>> k := by
  have htop : (c >>> (k + 1)).getLsbD 15 = false := by
    rw [BitVec.getLsbD_ushiftRight]
    exact BitVec.getLsbD_of_ge _ _ (by omega)
  rw [crcStep_eq_shiftConcat, htop, if_neg Bool.false_ne_true]
  exact (BitVec.shiftRight_sub_one_eq_shiftConcat c k.succ_pos).symm

/-! ### One byte (R93) -/

/-- A byte is consumed most significant bit first. -/
theorem crcByte_eq_foldl (r : Word16) (b : Byte) :
    crcByte r b = (List.range 8).foldl (fun r t => crcStep r (b.getLsbD (7 - t))) r := by
  apply List.foldl_ext
  intro r t ht
  rw [bitRev8_getLsbD b (List.mem_range.mp ht)]

/-- Steps over two bit sequences at once are the steps over each (R92). -/
theorem foldl_crcStep_xor (f g : Nat → Bool) (l : List Nat) : ∀ r r' : Word16,
    l.foldl (fun r t => crcStep r (f t ^^ g t)) (r ^^^ r') =
      l.foldl (fun r t => crcStep r (f t)) r ^^^ l.foldl (fun r t => crcStep r (g t)) r' := by
  induction l with
  | nil => exact fun _ _ => rfl
  | cons t l ih =>
    intro r r'
    simp only [List.foldl_cons, crcStep_xor, ih]

/-- Consuming a byte is linear over XOR. -/
theorem crcByte_xor (r r' : Word16) (b b' : Byte) :
    crcByte (r ^^^ r') (b ^^^ b') = crcByte r b ^^^ crcByte r' b' := by
  simp only [crcByte_eq_foldl, BitVec.getLsbD_xor, foldl_crcStep_xor]

/-- A loop whose every step is injective in the state is injective in the initial state. -/
theorem foldl_injective {α β : Type} {f : α → β → α}
    (h : ∀ b, Function.Injective (f · b)) (l : List β) :
    Function.Injective (fun a => l.foldl f a) := by
  induction l with
  | nil => exact fun _ _ => id
  | cons b l ih => exact fun _ _ heq => h b (ih heq)

theorem crcByte_injective (b : Byte) : Function.Injective (crcByte · b) :=
  foldl_injective (fun _ => crcStep_injective _) _

/-- Shifting the low `k` bits of a word in below what stands above them completes the word. -/
theorem foldl_crcStep_ushiftRight (c : Word16) (k : Nat) :
    (List.range k).foldl (fun r t => crcStep r (c.getLsbD (k - 1 - t))) (c >>> k) = c := by
  induction k with
  | zero => simp
  | succ k ih =>
    rw [List.range_succ_eq_map, List.foldl_cons, List.foldl_map]
    simp only [Nat.add_sub_cancel, Nat.sub_zero, crcStep_ushiftRight]
    simpa [Nat.sub_sub, Nat.add_comm] using ih

/-- The low byte of a word, consumed after what stands above it, completes the word. -/
theorem crcByte_fcsLow (c : Word16) : crcByte (c >>> 8) (fcsLow c) = c := by
  rw [crcByte_eq_foldl]
  conv_rhs => rw [← foldl_crcStep_ushiftRight c 8]
  apply List.foldl_ext
  intro r t _
  rw [fcsLow, BitVec.getLsbD_extractLsb', decide_eq_true (by omega), Bool.true_and, Nat.zero_add]

theorem fcsLow_eq_setWidth (c : Word16) : fcsLow c = c.setWidth 8 :=
  (BitVec.setWidth_eq_extractLsb' (by decide)).symm

/-- The high byte is the low byte of what stands above the low byte. -/
theorem fcsHigh_eq_fcsLow (c : Word16) : fcsHigh c = fcsLow (c >>> 8) := by
  rw [fcsLow_eq_setWidth, BitVec.setWidth_ushiftRight_eq_extractLsb, fcsHigh]

/-- A byte consumed from the zero register is there as it is. -/
theorem crcByte_zero_left (b : Byte) : crcByte 0#16 b = b.setWidth 16 := by
  have hlow : fcsLow (b.setWidth 16) = b := by
    rw [fcsLow_eq_setWidth, BitVec.setWidth_setWidth_of_le _ (by decide), BitVec.setWidth_eq]
  have hhigh : b.setWidth 16 >>> 8 = 0#16 := by
    apply BitVec.eq_of_getLsbD_eq
    intro i _
    simp
  simpa only [hlow, hhigh] using crcByte_fcsLow (b.setWidth 16)

/-- Two bytes consumed from the zero register are there as they are. -/
theorem crcByte_crcByte_zero_left (c : Word16) :
    crcByte (crcByte 0#16 (fcsHigh c)) (fcsLow c) = c := by
  have hhigh : c >>> 8 >>> 8 = 0#16 := by
    rw [← BitVec.shiftRight_add, BitVec.ushiftRight_eq_zero (by decide)]
  rw [fcsHigh_eq_fcsLow, ← hhigh, crcByte_fcsLow, crcByte_fcsLow]

/-- What a byte adds to the register is the byte itself. -/
theorem crcByte_eq_xor (r : Word16) (b : Byte) :
    crcByte r b = crcByte r 0#8 ^^^ b.setWidth 16 := by
  have h := crcByte_xor r 0#16 0#8 b
  rwa [BitVec.xor_zero, BitVec.zero_xor, crcByte_zero_left] at h

theorem crcByte_injective_byte (r : Word16) : Function.Injective (crcByte r) := by
  intro b b' h
  rw [crcByte_eq_xor r b, crcByte_eq_xor r b', BitVec.xor_right_inj] at h
  simpa using congrArg (BitVec.setWidth 8) h

/-! ### The register over a byte vector (R93) -/

@[simp] theorem crcRegister_append (B C : List Byte) :
    crcRegister (B ++ C) = C.foldl crcByte (crcRegister B) :=
  List.foldl_append

theorem crcRegister_eq_foldl (B : List Byte) :
    crcRegister B = (msbFirstBits B).foldl crcStep Config.crcInit := by
  simp only [crcRegister, msbFirstBits, List.foldl_flatMap, List.foldl_map, ← crcByte_eq_foldl]

/-- Settles O21: the inner loop of each byte is the loop over its bits. -/
theorem doComputeConsumesMostSignificantBitFirst :
    Obligations.DoComputeConsumesMostSignificantBitFirst :=
  fun B => congrArg (~~~ ·) (crcRegister_eq_foldl B)

/-- The register after the two zero bytes of the placeholder (R94). -/
def crcFlush (r : Word16) : Word16 := crcByte (crcByte r 0#8) 0#8

theorem crcRegister_append_zeros (P : List Byte) :
    crcRegister (P ++ zeros 2) = crcFlush (crcRegister P) :=
  crcRegister_append P (zeros 2)

/-- Two checksum bytes in place of the placeholder are added to what the placeholder leaves. -/
theorem crcRegister_append_checksum (P : List Byte) (c : Word16) :
    crcRegister (P ++ [fcsHigh c, fcsLow c]) = crcFlush (crcRegister P) ^^^ c := by
  have hhigh := crcByte_xor (crcRegister P) 0#16 0#8 (fcsHigh c)
  have hlow := crcByte_xor (crcByte (crcRegister P) 0#8) (crcByte 0#16 (fcsHigh c)) 0#8 (fcsLow c)
  simp only [BitVec.xor_zero, BitVec.zero_xor] at hhigh hlow
  rw [crcRegister_append, List.foldl_cons, hhigh, List.foldl_cons, hlow, crcByte_crcByte_zero_left]
  rfl

/-- The checksum inverts the register its own bytes are then added to. -/
theorem doCompute_crcFrame (P : List Byte) : doCompute (crcFrame P) = 0#16 := by
  rw [doCompute, crcFrame, crcRegister_append_checksum, doCompute, crcRegister_append_zeros,
    BitVec.not_xor_left, BitVec.xor_self]

/-- Settles O22: the register ends with every bit set. -/
theorem crcZeroSumAfterCompute : Obligations.CrcZeroSumAfterCompute :=
  doCompute_crcFrame

/-- A change of one byte, whatever it is, changes the result. -/
theorem doCompute_ne_of_byte_ne (B C : List Byte) {b b' : Byte} (h : b ≠ b') :
    doCompute (B ++ b :: C) ≠ doCompute (B ++ b' :: C) := by
  intro heq
  have hreg := BitVec.not_inj.mp heq
  rw [crcRegister_append, crcRegister_append, List.foldl_cons, List.foldl_cons] at hreg
  exact h (crcByte_injective_byte _ (foldl_injective crcByte_injective C hreg))

theorem byteWithBit_not_ne (b : Byte) {t : Nat} (ht : t < 8) :
    byteWithBit b t (!b.getLsbD t) ≠ b := by
  intro h
  have hbit := byteWithBit_getLsbD b t t (!b.getLsbD t) ht ht
  simp [h] at hbit

theorem doCompute_flipBit_ne {B : List Byte} {j : Nat} (hj : j / 8 < B.length) :
    doCompute (flipBit B j) ≠ doCompute B := by
  have hB : B = B.take (j / 8) ++ B[j / 8] :: B.drop (j / 8 + 1) := by simp
  have hflip : flipBit B j = B.take (j / 8) ++
      byteWithBit B[j / 8] (j % 8) (!B[j / 8].getLsbD (j % 8)) :: B.drop (j / 8 + 1) := by
    rw [flipBit, setBit, List.modify_eq_take_cons_drop hj, getBitOrZero_of_lt hj]
  rw [hflip]
  conv_rhs => rw [hB]
  exact doCompute_ne_of_byte_ne _ _ (byteWithBit_not_ne _ (Nat.mod_lt _ (by decide)))

/-! ### The direct form (R100) -/

theorem crcByte_zero_right (r : Word16) : crcByte r 0#8 = (crcStep · false)^[8] r := by
  rw [crcByte_eq_foldl]
  simp only [BitVec.getLsbD_zero]
  exact List.foldl_const (crcStep · false) r (List.range 8)

/-- The placeholder is sixteen steps with a zero input bit. -/
theorem crcFlush_eq_iterate (r : Word16) : crcFlush r = (crcStep · false)^[16] r := by
  rw [crcFlush, crcByte_zero_right, crcByte_zero_right, ← Function.iterate_add_apply]

/-- A one bit that passes through the whole register leaves the polynomial. -/
theorem crcFlush_crcStep_zero (b : Bool) :
    crcFlush (crcStep 0#16 b) = if b then Config.crcPoly else 0#16 := by
  cases b <;> decide +kernel

/-- The direct form is a step without input that adds the polynomial for a one bit. -/
theorem directStep_eq_xor (r : Word16) (b : Bool) :
    directStep r b = crcStep r false ^^^ if b then Config.crcPoly else 0#16 := by
  unfold directStep crcStep
  cases r.getLsbD 15 <;> cases b <;> simp [Config.crcPoly]

theorem crcFlush_xor (r r' : Word16) : crcFlush (r ^^^ r') = crcFlush r ^^^ crcFlush r' := by
  simp only [crcFlush, ← crcByte_xor, BitVec.xor_zero]

/-- A bit that then passes through the whole register is a bit that meets its top at once. -/
theorem crcFlush_crcStep (r : Word16) (b : Bool) :
    crcFlush (crcStep r b) = directStep (crcFlush r) b := by
  have hsplit := crcStep_xor r 0#16 false b
  have hcomm : crcFlush (crcStep r false) = crcStep (crcFlush r) false := by
    rw [crcFlush_eq_iterate, crcFlush_eq_iterate]
    exact Function.Commute.iterate_self (crcStep · false) 16 r
  rw [BitVec.xor_zero, Bool.false_xor] at hsplit
  rw [directStep_eq_xor, ← crcFlush_crcStep_zero, hsplit, crcFlush_xor, hcomm]

/-- Settles O25: the placeholder's sixteen steps turn each step of the payload into a direct one,
and the initial register into `0xFFFF`. -/
theorem checksumEqualsDirectFormCrc : Obligations.ChecksumEqualsDirectFormCrc := by
  intro P
  have hinit : crcFlush Config.crcInit = 0xFFFF#16 := by decide +kernel
  rw [doCompute, crcRegister_append_zeros, crcRegister_eq_foldl, ← hinit]
  exact congrArg (~~~ ·) (List.foldl_hom crcFlush fun r b => (crcFlush_crcStep r b).symm).symm

/-! ### The three commands while they run (R94 to R96) -/

section
variable {s : State} (hh : s.status.halted = false)
include hh

theorem exec_crcInit_of_fits (hc : Instance.capOk s.inst (s.len + 2) = true) :
    exec .crcInit s = .next
      { s with mem := Memory.ofBytes (s.buf ++ zeros 2), status := okStatus false } :=
  State.whenRunning_eq_ended (u := s.setBuf (s.buf ++ zeros 2)) hh rfl
    (State.growTo_of_fits (by simpa [Config.fcsBytes] using hc))

theorem exec_crcCompute_of_le (hl : 2 ≤ s.len) :
    exec .crcCompute s = .next
      { s with mem := (s.mem.write (s.len - 2) (fcsHigh (doCompute s.buf))).write (s.len - 1)
                 (fcsLow (doCompute s.buf)), status := okStatus false } :=
  State.whenRunning_eq_ended
    (u := (s.memWrite (s.len - 2) (fcsHigh (doCompute s.buf))).memWrite (s.len - 1)
      (fcsLow (doCompute s.buf))) hh rfl (if_neg (Nat.not_lt.mpr hl))

theorem exec_crcCompute_of_lt (hl : s.len < 2) :
    exec .crcCompute s = .next { s with status := errStatus .invalidState } :=
  State.whenRunning_eq_raised hh (by decide) (if_pos hl)

theorem exec_crcVerify_of_le (hl : 2 ≤ s.len) :
    exec .crcVerify s = .next
      { s with mem := Memory.ofBytes (s.buf.take (s.len - 2)),
               status := okStatus (decide (doCompute s.buf = 0#16)) } :=
  State.whenRunning_eq_ended (u := s.setBuf (s.buf.take (s.len - 2))) hh rfl
    (if_neg (Nat.not_lt.mpr hl))

/-- A buffer too short for a checksum is no error, only not verified (R96). -/
theorem exec_crcVerify_of_lt (hl : s.len < 2) :
    exec .crcVerify s = .next { s with status := okStatus false } :=
  State.whenRunning_eq_ended (u := s) hh rfl (if_pos hl)

end

/-- Settles O16: the old addresses lie below the two new ones. -/
theorem crcInitAppendsTwoZeroBytes : Obligations.CrcInitAppendsTwoZeroBytes := by
  intro s hh hwf hc
  refine ⟨_, exec_crcInit_of_fits hh hc, rfl, rfl, Memory.bytes_ofBytes _, ?len, ?old⟩
  case len => simp [State.len, State.buf]
  case old =>
    intro a hne hne'
    rw [Memory.read_ofBytes, State.read_eq_buf hwf]
    by_cases ha : a < s.len
    · exact List.getElem?_append_left (by simpa using ha)
    · rw [List.getElem?_eq_none (by simp; omega), List.getElem?_eq_none (by simp; omega)]

theorem fcsHigh_eq_ofNat (c : Word16) : fcsHigh c = BitVec.ofNat 8 (c.toNat / 256) := by
  rw [fcsHigh, BitVec.extractLsb', Nat.shiftRight_eq_div_pow]

theorem fcsLow_eq_ofNat (c : Word16) : fcsLow c = BitVec.ofNat 8 (c.toNat % 256) := by
  rw [fcsLow_eq_setWidth]
  apply BitVec.eq_of_toNat_eq
  simp

/-- Settles O17: two writes to two different addresses that exist. -/
theorem crcComputeStoresChecksumBigEndian : Obligations.CrcComputeStoresChecksumBigEndian := by
  refine fun s hh hwf => ⟨fun hl => ?_, exec_crcCompute_of_lt hh⟩
  refine ⟨_, exec_crcCompute_of_le hh hl, rfl, rfl, ?len, ?high, ?low, ?frame⟩
  case len => simp [State.len]
  case high =>
    rw [Memory.read_write_ne _ _ (by omega), ← fcsHigh_eq_ofNat]
    apply Memory.read_write_eq
    rw [Memory.mem_addresses_iff hwf]
    exact Nat.sub_lt (by omega) (by decide)
  case low =>
    rw [← fcsLow_eq_ofNat]
    apply Memory.read_write_eq
    rw [Memory.mem_addresses_iff (Memory.write_wf hwf _ _), Memory.write_length]
    exact Nat.sub_lt (by omega) (by decide)
  case frame =>
    intro a hhigh hlow
    rw [Memory.read_write_ne _ _ hlow, Memory.read_write_ne _ _ hhigh]

/-- Settles O18: the running branch of `CRC.VERIFY` at either length. -/
theorem crcVerifyStripsAndReports : Obligations.CrcVerifyStripsAndReports := by
  refine fun s hh hwf => ⟨fun hl => ?_, exec_crcVerify_of_lt hh⟩
  refine ⟨_, exec_crcVerify_of_le hh hl, rfl, rfl, Memory.bytes_ofBytes _, ?len, ?frame⟩
  case len => simp [State.len, State.buf]
  case frame =>
    intro a ha
    rw [Memory.read_ofBytes, State.read_eq_buf hwf, List.getElem?_take_of_lt ha]

/-! ### Frames (30_encoding.md R54, R99) -/

@[simp] theorem crcFrame_length (P : List Byte) : (crcFrame P).length = P.length + 2 := by
  simp [crcFrame]

theorem take_crcFrame (P : List Byte) : (crcFrame P).take P.length = P :=
  List.take_left

/-- A write to a memory is the same write to its byte vector. -/
theorem Memory.write_ofBytes (B : List Byte) (a : Nat) (v : Byte) :
    (Memory.ofBytes B).write a v = Memory.ofBytes (B.set a v) := by
  rw [← Memory.ofBytes_bytes (Memory.write_wf (Memory.ofBytes_wf B) a v),
    Memory.bytes_write (Memory.ofBytes_wf B), Memory.bytes_ofBytes]

/-- The placeholder overwritten by two bytes. -/
theorem set_set_placeholder (P : List Byte) (b b' : Byte) :
    ((P ++ zeros 2).set P.length b).set (P.length + 1) b' = P ++ [b, b'] := by
  simp [zeros, List.replicate_succ]

section
variable {s : State} {P : List Byte} (hh : s.status.halted = false)
include hh

/-- `CRC.COMPUTE` on a payload with its placeholder gives the payload's frame. -/
theorem exec_crcCompute_of_placeholder (hmem : s.mem = Memory.ofBytes (P ++ zeros 2)) :
    exec .crcCompute s = .next
      { s with mem := Memory.ofBytes (crcFrame P), status := okStatus false } := by
  have hbuf : s.buf = P ++ zeros 2 := by rw [State.buf, hmem, Memory.bytes_ofBytes]
  have hlen : s.len = P.length + 2 := by rw [← State.buf_length, hbuf]; simp
  rw [exec_crcCompute_of_le hh (by omega), hmem, hbuf, hlen, Memory.write_ofBytes,
    Memory.write_ofBytes, Nat.add_sub_cancel, Nat.add_sub_assoc (by decide), set_set_placeholder]
  rfl

/-- `CRC.VERIFY` on the frame of a payload reports true and gives the payload. -/
theorem exec_crcVerify_of_crcFrame (hbuf : s.buf = crcFrame P) :
    exec .crcVerify s = .next
      { s with mem := Memory.ofBytes P, status := okStatus true } := by
  have hlen : s.len = P.length + 2 := by rw [← State.buf_length, hbuf, crcFrame_length]
  rw [exec_crcVerify_of_le hh (by omega), hbuf, hlen, Nat.add_sub_cancel, take_crcFrame,
    doCompute_crcFrame, decide_eq_true rfl]

end

/-- Settles O23: the placeholder, the frame over it, and the frame verified. -/
theorem crcRoundTripRestoresPayload : Obligations.CrcRoundTripRestoresPayload := by
  intro s hh hc
  have hframe : (Memory.ofBytes (crcFrame s.buf)).bytes = crcFrame s.buf := Memory.bytes_ofBytes _
  exact ⟨_, _, _, exec_crcInit_of_fits hh hc, exec_crcCompute_of_placeholder rfl rfl, hframe,
    exec_crcVerify_of_crcFrame rfl hframe, rfl, Memory.bytes_ofBytes _, rfl⟩

/-- Settles O24: the damaged frame's value differs from the frame's, which is 0. -/
theorem crcDetectsEverySingleBitFlip : Obligations.CrcDetectsEverySingleBitFlip := by
  intro s P j hh hj hbuf
  have hlen : s.len = P.length + 2 := by
    rw [← State.buf_length, hbuf, flipBit_length, crcFrame_length]
  have hne : doCompute s.buf ≠ 0#16 := by
    rw [hbuf, ← doCompute_crcFrame P]
    exact doCompute_flipBit_ne (by rw [crcFrame_length]; omega)
  refine ⟨_, exec_crcVerify_of_le hh (by omega), ?status, ?buf⟩
  case status => rw [decide_eq_false hne]
  case buf => rw [hlen, Nat.add_sub_cancel]; exact Memory.bytes_ofBytes _

end Sys2Proof.Machine

/-! ## The Hamming unit: lemmas and proofs (43_hamming.md) -/

namespace Sys2Proof.Machine

/-! ### A legal instance never halts (R121) -/

/-- Under a legal configuration `HAM.VERIFY` raises `InvalidState` or ends with a payload. -/
theorem exec_hamVerify_next_of_wf {s t : State} (hwf : s.inst.wf) (hh : s.status.halted = false)
    (h : exec .hamVerify s = .next t) :
    t = s.raise .invalidState ∨ ∃ out, t = (s.setBuf out).finish true := by
  obtain ⟨-, rfl⟩ | ⟨-, out, -, rfl⟩ | ⟨-, hnone, -⟩ := exec_hamVerify_next hh h
  · exact .inl rfl
  · exact .inr ⟨out, rfl⟩
  · obtain ⟨out, hout⟩ := hamVerifyBuf_of_wf hwf s.buf
    simp [hnone] at hout

/-- STATUS of a machine that can go on: not halted, and no fatal error shown. -/
abbrev Status.Running (st : Status) : Prop :=
  st.halted = false ∧ st.err ≠ .internalInconsistency

theorem Status.ended_running {st : Status} (hh : st.halted = false) (r : Bool) :
    (st.ended r).Running :=
  ⟨hh, by simp⟩

theorem Status.raised_running {st : Status} {e : ErrKind} (hh : st.halted = false)
    (he : e ≠ .internalInconsistency) : (st.raised e).Running := by
  simp [Status.raised, Status.Running, hh, he]

/-- Under a legal configuration no command halts the machine. -/
theorem exec_keeps_running {i : Instr} {s t : State} (hwf : s.inst.wf)
    (hh : s.status.halted = false) (h : exec i s = .next t) : t.status.Running := by
  cases exec_effect h with
  | frozen hh' => simp [hh] at hh'
  | raised _ e he => exact Status.raised_running hh (by rcases he with rfl | rfl <;> decide)
  | rdataWritten => exact Status.ended_running hh _
  | bufferWritten => exact Status.ended_running hh _
  | abandoned _ hi =>
    subst hi
    obtain heq | ⟨out, heq⟩ := exec_hamVerify_next_of_wf hwf hh h
    · rw [heq]; exact Status.raised_running hh (by decide)
    · rw [heq]; exact Status.ended_running hh _

/-- Settles O33: `2 ^ N - 1` is the largest syndrome, and the abandoned branch needs a larger. -/
theorem internalInconsistencyNeverFires : Obligations.InternalInconsistencyNeverFires := by
  refine fun s hwf => ⟨syndrome_le_codebits hwf, fun hh t h => ?_⟩
  obtain ⟨hrun, herr⟩ := exec_keeps_running hwf hh h
  exact ⟨herr, hrun⟩

/-! ### The invariant (20_memory.md R37, R41; 60_exceptions.md R152) -/

/-- Every command leaves the buffer in canonical form. -/
theorem exec_keeps_memory_wf {i : Instr} {s t : State} (hmem : s.mem.wf)
    (h : exec i s = .next t) : t.mem.wf := by
  cases hh : s.status.halted with
  | true =>
    rw [exec_of_halted i hh] at h
    cases h
    exact hmem
  | false =>
    cases i with
    | bufClear =>
      obtain rfl := exec_bufClear_next hh h
      exact Memory.ofBytes_wf _
    | bufPush =>
      obtain ⟨-, rfl⟩ := exec_bufPush_next hh h
      exact Memory.ofBytes_wf _
    | bufRdbyte => obtain ⟨b, -, rfl⟩ | ⟨-, rfl⟩ := exec_bufRdbyte_next hh h <;> exact hmem
    | bufWrbyte =>
      obtain ⟨-, rfl⟩ | ⟨-, rfl⟩ := exec_bufWrbyte_next hh h
      · exact Memory.write_wf hmem _ _
      · exact hmem
    | bufGetbit =>
      obtain rfl := exec_bufGetbit_next hh h
      exact hmem
    | bufSetbit =>
      obtain ⟨-, rfl⟩ | ⟨-, rfl⟩ := exec_bufSetbit_next hh h
      · exact Memory.ofBytes_wf _
      · exact hmem
    | crcInit =>
      obtain ⟨-, rfl⟩ := exec_crcInit_next hh h
      exact Memory.ofBytes_wf _
    | crcCompute =>
      obtain ⟨-, rfl⟩ | ⟨-, rfl⟩ := exec_crcCompute_next hh h
      · exact hmem
      · exact Memory.write_wf (Memory.write_wf hmem _ _) _ _
    | crcVerify =>
      obtain ⟨-, rfl⟩ | ⟨-, rfl⟩ := exec_crcVerify_next hh h
      · exact hmem
      · exact Memory.ofBytes_wf _
    | hamInit =>
      obtain ⟨-, rfl⟩ := exec_hamInit_next hh h
      exact Memory.ofBytes_wf _
    | hamCompute =>
      obtain ⟨-, rfl⟩ | ⟨-, rfl⟩ := exec_hamCompute_next hh h
      · exact hmem
      · exact Memory.ofBytes_wf _
    | hamVerify =>
      obtain ⟨-, rfl⟩ | ⟨-, out, -, rfl⟩ | ⟨-, -, rfl⟩ := exec_hamVerify_next hh h
      · exact hmem
      · exact Memory.ofBytes_wf _
      · exact Memory.ofBytes_wf _

theorem exec_keeps_inv {i : Instr} {s t : State} (hinv : s.Inv) (h : exec i s = .next t) :
    t.Inv := by
  obtain ⟨hwf, hmem, hcap, hidx, hh, -⟩ := hinv
  obtain ⟨htidx, -, htinst, -⟩ := commandsKeepOperandRegisters i s t h
  refine ⟨?_, exec_keeps_memory_wf hmem h, exec_keeps_capOk hh hwf hcap h, ?_,
    exec_keeps_running hwf hh h⟩
  · rwa [htinst]
  · rwa [htinst, htidx]

theorem runCommandWord_keeps_inv {v : Byte} {s t : State} (hinv : s.Inv)
    (h : runCommandWord v s = .next t) : t.Inv := by
  obtain ⟨i, -, hi⟩ | ⟨r, -, hr⟩ := runCommandWord_next h
  · exact exec_keeps_inv hinv hi
  · obtain ⟨hwf, hmem, hcap, hidx, hh, -⟩ := hinv
    obtain ⟨hh', -⟩ | ⟨-, rfl⟩ := State.illegalCommand_next hr
    · simp [hh] at hh'
    · exact ⟨hwf, hmem, hcap, hidx, Status.raised_running hh (by decide)⟩

theorem hostWrite_keeps_inv {number value : Nat} {s t : State} (hinv : s.Inv)
    (h : hostWrite number value s = .next t) : t.Inv := by
  obtain ⟨-, -, hrun⟩ | ⟨-, hfit, rfl⟩ | ⟨-, -, rfl⟩ | ⟨-, -, -, rfl⟩ := hostWrite_next h
  · exact runCommandWord_keeps_inv hinv hrun
  · obtain ⟨hwf, hmem, hcap, -, hstatus⟩ := hinv
    exact ⟨hwf, hmem, hcap, hfit, hstatus⟩
  · exact hinv
  · exact hinv

theorem hostReadByte_next {index : Nat} {s t : State} (h : hostReadByte index s = .next t) :
    ∃ v, t = s.setHostRead v := by
  unfold hostReadByte at h
  split at h
  · cases h; exact ⟨_, rfl⟩
  · cases h

theorem hostLoad_next {B : List Byte} {s t : State} (h : hostLoad B s = .next t) :
    Instance.capOk s.inst B.length = true ∧ t = s.setBuf B := by
  unfold hostLoad at h
  split at h
  · rename_i hc; cases h; exact ⟨hc, rfl⟩
  · cases h

/-- No action of the host, a command word included, leads out of the invariant. -/
theorem hostStep_keeps_inv {a : HostAction} {s t : State} (hinv : s.Inv)
    (h : hostStep a s = .next t) : t.Inv := by
  cases a with
  | writeReg number value => exact hostWrite_keeps_inv hinv h
  | readReg number => cases h; exact hinv
  | readByte index => obtain ⟨v, rfl⟩ := hostReadByte_next h; exact hinv
  | readBit index => cases h; exact hinv
  | load B =>
    obtain ⟨hc, rfl⟩ := hostLoad_next h
    obtain ⟨hwf, -, -, hrest⟩ := hinv
    exact ⟨hwf, Memory.ofBytes_wf B, by rwa [State.setBuf_len], hrest⟩
  | reset =>
    cases h
    obtain ⟨hwf, -⟩ := hinv
    exact State.resetOf_inv hwf

/-- Settles O53: the queue of actions is not in the invariant, and each action keeps it. -/
theorem stepKeepsInvariant : Obligations.StepKeepsInvariant := by
  intro s t hinv h
  obtain ⟨-, hidle⟩ | ⟨a, rest, -, hact⟩ := step_cases s
  · rw [hidle] at h; cases h; exact hinv
  · rw [hact] at h
    exact hostStep_keeps_inv (s := s.setPending rest) hinv h

/-! ### Construction (R110) -/

theorem isPow2_iff {x : Nat} : isPow2 x = true ↔ ∃ k, x = 2 ^ k := by
  constructor
  · intro h
    obtain ⟨hpos, hand⟩ : 1 ≤ x ∧ x &&& (x - 1) = 0 := by simpa [isPow2] using h
    exact (Nat.and_sub_one_eq_zero_iff_isPowerOfTwo (Nat.ne_of_gt hpos)).mp hand
  · rintro ⟨k, rfl⟩
    exact isPow2_two_pow k

/-- The instance of `2 ^ N - 1` bits. -/
def Instance.ofRank (N : Nat) (bufCap idxw : Option Nat) : Instance :=
  { codebits := 2 ^ N - 1, n := N, databits := 2 ^ N - 1 - N,
    paddingbits := (8 - (2 ^ N - 1) % 8) % 8,
    wordbytes := (2 ^ N - 1 + (8 - (2 ^ N - 1) % 8) % 8) / 8, bufCap := bufCap, idxw := idxw }

theorem two_lt_two_pow_sub_one_iff {N : Nat} : 2 < 2 ^ N - 1 ↔ 2 ≤ N := by
  rw [← Nat.pow_le_pow_iff_right (a := 2) (by decide)]
  omega

theorem construct_two_pow_sub_one {N : Nat} (h2 : 2 ≤ N) (h32 : N ≤ 32)
    (bufCap idxw : Option Nat) :
    construct (2 ^ N - 1) bufCap idxw = some (Instance.ofRank N bufCap idxw) := by
  have hsucc : 2 ^ N - 1 + 1 = 2 ^ N := Nat.sub_add_cancel Nat.one_le_two_pow
  simp only [construct, hsucc, two_lt_two_pow_sub_one_iff, isPow2_two_pow, Nat.log2_two_pow, h2,
    and_self, if_true, Config.accw, if_neg (Nat.not_lt.mpr h32)]
  rfl

/-- Construction from anything but `2 ^ N - 1` with `2 <= N <= 32` is a `ConstructionError`. -/
theorem construct_eq_some {codebits : Nat} {bufCap idxw : Option Nat} {c : Instance}
    (h : construct codebits bufCap idxw = some c) :
    ∃ N, 2 ≤ N ∧ N ≤ 32 ∧ codebits = 2 ^ N - 1 := by
  unfold construct at h
  split at h
  · rename_i hlegal
    obtain ⟨hlt, hpow⟩ := hlegal
    obtain ⟨N, hN⟩ := isPow2_iff.mp hpow
    obtain rfl : codebits = 2 ^ N - 1 := by omega
    rw [hN, Nat.log2_two_pow] at h
    by_cases hacc : Config.accw < N
    · simp [hacc] at h
    · exact ⟨N, two_lt_two_pow_sub_one_iff.mp hlt, Nat.not_lt.mp hacc, rfl⟩
  · cases h

theorem construct_eq_some_iff {codebits : Nat} {bufCap idxw : Option Nat} {c : Instance} :
    construct codebits bufCap idxw = some c ↔
      ∃ N, 2 ≤ N ∧ N ≤ 32 ∧ codebits = 2 ^ N - 1 ∧ c = Instance.ofRank N bufCap idxw := by
  constructor
  · intro h
    obtain ⟨N, h2, h32, rfl⟩ := construct_eq_some h
    rw [construct_two_pow_sub_one h2 h32] at h
    exact ⟨N, h2, h32, rfl, (Option.some.inj h).symm⟩
  · rintro ⟨N, h2, h32, rfl, rfl⟩
    exact construct_two_pow_sub_one h2 h32 _ _

/-- Settles O26: the powers of two above 3 are the `2 ^ N` with `2 <= N`. -/
theorem constructAcceptsExactlyLegalCodebits :
    Obligations.ConstructAcceptsExactlyLegalCodebits := by
  intro codebits bufCap idxw c
  rw [construct_eq_some_iff]
  refine exists_congr fun N => and_congr_right fun _ => and_congr_right fun _ =>
    and_congr_right fun hcode => ?_
  rw [hcode, Instance.ofRank]

/-- A legal instance is the instance of its rank. -/
theorem Instance.wf_iff_eq_ofRank {c : Instance} :
    c.wf ↔ 2 ≤ c.n ∧ c.n ≤ 32 ∧ c = Instance.ofRank c.n c.bufCap c.idxw := by
  constructor
  · obtain ⟨codebits, n, databits, paddingbits, wordbytes, bufCap, idxw⟩ := c
    dsimp only [Instance.wf]
    rintro ⟨h2, h32, hpow, rfl, rfl, rfl⟩
    obtain rfl : codebits = 2 ^ n - 1 := Nat.eq_sub_of_add_eq hpow.symm
    exact ⟨h2, h32, rfl⟩
  · rintro ⟨h2, h32, heq⟩
    have hsucc : 2 ^ c.n = 2 ^ c.n - 1 + 1 := (Nat.sub_add_cancel Nat.one_le_two_pow).symm
    rw [heq]
    exact ⟨h2, h32, hsucc, rfl, rfl, rfl⟩

/-- Settles O27: construction gives the instance of one rank, and a legal instance is that. -/
theorem constructedInstancesAreExactlyWellFormed :
    Obligations.ConstructedInstancesAreExactlyWellFormed := by
  intro c
  rw [Instance.wf_iff_eq_ofRank, construct_eq_some_iff]
  constructor
  · rintro ⟨h2, h32, heq⟩
    exact ⟨c.n, h2, h32, congrArg Instance.codebits heq, heq⟩
  · rintro ⟨N, h2, h32, -, heq⟩
    obtain rfl : c.n = N := congrArg Instance.n heq
    exact ⟨h2, h32, heq⟩

/-! ### XOR over a list of positions -/

/-- The XOR of `f` over a list. -/
def xorOver (l : List Nat) (f : Nat → Bool) : Bool := l.foldr (fun i x => f i ^^ x) false

@[simp] theorem xorOver_nil (f : Nat → Bool) : xorOver [] f = false := rfl

@[simp] theorem xorOver_cons (i : Nat) (l : List Nat) (f : Nat → Bool) :
    xorOver (i :: l) f = (f i ^^ xorOver l f) := rfl

theorem xorOver_append (l m : List Nat) (f : Nat → Bool) :
    xorOver (l ++ m) f = (xorOver l f ^^ xorOver m f) := by
  induction l with
  | nil => simp
  | cons i l ih => simp [ih]

theorem xorOver_map (l : List Nat) (g : Nat → Nat) (f : Nat → Bool) :
    xorOver (l.map g) f = xorOver l (fun i => f (g i)) :=
  List.foldr_map

theorem xorOver_filter (l : List Nat) (p f : Nat → Bool) :
    xorOver (l.filter p) f = xorOver l (fun i => p i && f i) := by
  induction l with
  | nil => rfl
  | cons i l ih => cases h : p i <;> simp [h, ih]

theorem xorOver_congr {l : List Nat} {f g : Nat → Bool} (h : ∀ i ∈ l, f i = g i) :
    xorOver l f = xorOver l g := by
  induction l with
  | nil => rfl
  | cons i l ih =>
    rw [List.forall_mem_cons] at h
    rw [xorOver_cons, xorOver_cons, h.1, ih h.2]

theorem xorOver_eq_false {l : List Nat} {f : Nat → Bool} (h : ∀ i ∈ l, f i = false) :
    xorOver l f = false := by
  rw [xorOver_congr h]
  induction l with
  | nil => rfl
  | cons i l ih => simpa using ih (fun j hj => h j (List.mem_cons_of_mem i hj))

theorem xorOver_xor (l : List Nat) (f g : Nat → Bool) :
    xorOver l (fun i => f i ^^ g i) = (xorOver l f ^^ xorOver l g) := by
  induction l with
  | nil => rfl
  | cons i l ih => simp only [xorOver_cons, ih, Bool.xor_assoc, Bool.xor_left_comm]

/-- A function that is 0 everywhere but at one element of the list. -/
theorem xorOver_single {l : List Nat} {a : Nat} (hl : l.Nodup) (ha : a ∈ l) (f : Nat → Bool) :
    xorOver l (fun i => decide (i = a) && f i) = f a := by
  induction l with
  | nil => cases ha
  | cons i l ih =>
    obtain ⟨hi, hl⟩ := List.nodup_cons.mp hl
    rw [xorOver_cons]
    obtain rfl | ha := List.mem_cons.mp ha
    · have hrest : xorOver l (fun i => decide (i = a) && f i) = false :=
        xorOver_eq_false fun j hj => by
          have : j ≠ a := fun e => hi (e ▸ hj)
          simp [this]
      simp [hrest]
    · have : i ≠ a := fun e => hi (e ▸ ha)
      simp [this, ih hl ha]

theorem foldl_xor_eq_xorOver (l : List Nat) (f : Nat → Bool) :
    (l.map f).foldl xor false = xorOver l f := by
  have : Std.Commutative xor := ⟨Bool.xor_comm⟩
  rw [List.foldl_eq_foldr, List.foldr_map]
  rfl

/-! ### The parity of a word (R112) -/

/-- The 1-based positions of a code word. -/
abbrev positions (c : Instance) : List Nat := List.range' 1 c.codebits

theorem mem_positions {c : Instance} {pos : Nat} :
    pos ∈ positions c ↔ 1 ≤ pos ∧ pos ≤ c.codebits := by
  rw [List.mem_range'_1]
  omega

theorem and_two_pow_eq_zero_iff (x k : Nat) : x &&& 2 ^ k = 0 ↔ x.testBit k = false := by
  rw [Nat.and_two_pow]
  cases x.testBit k <;> simp

theorem foldl_parityStep (c : Instance) (B : List Byte) (w k : Nat) (l : List Nat) : ∀ x,
    l.foldl (parityStep c B w (2 ^ k)) x =
      (x ^^ xorOver l (fun q => (q + 1).testBit k && wordBit c B w (q + 1))) := by
  induction l with
  | nil => simp
  | cons q l ih =>
    intro x
    rw [List.foldl_cons, ih, xorOver_cons, parityStep]
    simp only [and_two_pow_eq_zero_iff]
    cases (q + 1).testBit k <;> simp [wordBit]

/-- The positions a parity position covers. -/
def covers (k pos : Nat) : Bool := decide (2 ^ k < pos) && pos.testBit k

theorem coveredParity_eq (c : Instance) (B : List Byte) (w k : Nat) :
    coveredParity c B w (2 ^ k) =
      xorOver (positions c) (fun pos => covers k pos && wordBit c B w pos) := by
  have hcov : ∀ pos, (decide (2 ^ k < pos) && (pos &&& 2 ^ k != 0)) = covers k pos := by
    intro pos
    cases h : pos.testBit k <;> simp [covers, h, bne, and_two_pow_eq_zero_iff]
  rw [coveredParity, foldl_xor_eq_xorOver, xorOver_filter]
  simp only [hcov]

/-- The scan from position `2 ^ k + 1` on misses no position that the parity covers. -/
theorem parity_eq_coveredParity {c : Instance} {k : Nat} (hk : 2 ^ k ≤ c.codebits)
    (B : List Byte) (w : Nat) : parity c B w (2 ^ k) = coveredParity c B w (2 ^ k) := by
  have hsplit : positions c =
      List.range' 1 (2 ^ k) ++ (List.range' (2 ^ k) (c.codebits - 2 ^ k)).map (· + 1) := by
    rw [← List.range'_succ_left, Nat.add_comm, List.range'_append_1, Nat.add_sub_of_le hk]
  rw [parity, foldl_parityStep, coveredParity_eq, hsplit, xorOver_append, xorOver_map]
  congr 1
  · refine (xorOver_eq_false fun pos hpos => ?_).symm
    rw [List.mem_range'_1] at hpos
    simp [covers, Nat.not_lt.mpr (show pos ≤ 2 ^ k by omega)]
  · refine xorOver_congr fun q hq => ?_
    rw [List.mem_range'_1] at hq
    simp [covers, show 2 ^ k < q + 1 by omega]

theorem two_pow_le_codebits {c : Instance} (h : c.wf) {k : Nat} (hk : k < c.n) :
    2 ^ k ≤ c.codebits := by
  obtain ⟨-, -, hcode, -⟩ := h
  have := Nat.pow_lt_pow_right (a := 2) (by decide) hk
  omega

/-- A covered position is no power of two: `2 ^ m` has bit `k` only for `m = k`. -/
theorem isPow2_of_covers {k pos : Nat} (h : covers k pos = true) : isPow2 pos = false := by
  obtain ⟨hlt, hbit⟩ : 2 ^ k < pos ∧ pos.testBit k = true := by simpa [covers] using h
  by_contra hpow
  obtain ⟨m, rfl⟩ := isPow2_iff.mp (Bool.eq_true_of_not_eq_false hpow)
  obtain rfl : m = k := by simpa [Nat.testBit_two_pow] using hbit
  exact Nat.lt_irrefl _ hlt

/-- Two buffers that agree on a word's data positions. -/
abbrev SameData (c : Instance) (B C : List Byte) (w : Nat) : Prop :=
  ∀ pos, isDataPos c pos → wordBit c B w pos = wordBit c C w pos

theorem coveredParity_congr {c : Instance} {B C : List Byte} {w : Nat} (h : SameData c B C w)
    (k : Nat) : coveredParity c B w (2 ^ k) = coveredParity c C w (2 ^ k) := by
  rw [coveredParity_eq, coveredParity_eq]
  refine xorOver_congr fun pos hpos => ?_
  obtain ⟨hpos1, hpos2⟩ := mem_positions.mp hpos
  cases hc : covers k pos with
  | false => rfl
  | true => rw [h pos ⟨hpos1, hpos2, isPow2_of_covers hc⟩]

/-- Settles O29: the covered positions are data positions. -/
theorem parityIsXorOfCoveredDataPositions : Obligations.ParityIsXorOfCoveredDataPositions := by
  intro c B w k hwf hk
  have hle := two_pow_le_codebits hwf hk
  refine ⟨parity_eq_coveredParity hle B w, fun C h => ?_⟩
  rw [parity_eq_coveredParity hle, parity_eq_coveredParity hle, coveredParity_congr h]

/-! ### The syndrome (R118) -/

theorem accBit_getLsbD (v : Acc) {k : Nat} (hk : k < 32) (b : Bool) (j : Nat) :
    (accBit v k b).getLsbD j = (v.getLsbD j || (b && decide (k = j))) := by
  cases b with
  | false => simp [accBit]
  | true =>
    rw [accBit, if_pos rfl, BitVec.getLsbD_or, ← BitVec.twoPow_eq, BitVec.getLsbD_twoPow,
      decide_eq_true hk]

/-- Bit `j` of a parity vector is the bit of rank `j`. -/
theorem foldl_accBit_getLsbD (f : Nat → Bool) {n : Nat} (hn : n ≤ 32) (j : Nat) :
    ((List.range n).foldl (fun v k => accBit v k (f k)) 0#32).getLsbD j =
      (decide (j < n) && f j) := by
  induction n with
  | zero => simp
  | succ n ih =>
    rw [List.range_succ, List.foldl_append, List.foldl_cons, List.foldl_nil,
      accBit_getLsbD _ (by omega), ih (by omega)]
    obtain hlt | rfl | hgt := Nat.lt_trichotomy j n
    · simp [hlt, Nat.lt_succ_of_lt hlt, hlt.ne']
    · simp
    · simp [hgt.not_gt, Nat.not_lt.mpr hgt, hgt.ne]

/-- The bit at parity position `2 ^ k`, as the loops of R116 and R117 index it. -/
theorem wordBase_add_two_pow_sub_one (c : Instance) (w k : Nat) :
    wordBase c w + 2 ^ k - 1 = wordBase c w + (2 ^ k - 1) :=
  Nat.add_sub_assoc Nat.one_le_two_pow _

theorem syndrome_testBit {c : Instance} (h : c.wf) (B : List Byte) (w k : Nat) :
    (syndrome c B w).testBit k =
      (decide (k < c.n) && (parity c B w (2 ^ k) ^^ wordBit c B w (2 ^ k))) := by
  obtain ⟨-, h32, -⟩ := h
  rw [syndrome, BitVec.testBit_toNat, BitVec.getLsbD_xor, newPar, oldPar,
    foldl_accBit_getLsbD (fun k => parity c B w (2 ^ k)) h32,
    foldl_accBit_getLsbD (fun k => getBitOrZero B (wordBase c w + 2 ^ k - 1)) h32,
    wordBase_add_two_pow_sub_one, ← Bool.and_xor_distrib_left, wordBit]

theorem foldl_xor_testBit (l : List Nat) (k : Nat) : ∀ x,
    (l.foldl (fun x pos => x ^^^ pos) x).testBit k =
      (x.testBit k ^^ xorOver l (fun pos => pos.testBit k)) := by
  induction l with
  | nil => simp
  | cons i l ih =>
    intro x
    rw [List.foldl_cons, ih, Nat.testBit_xor, xorOver_cons, Bool.xor_assoc]

theorem positionXor_testBit (c : Instance) (B : List Byte) (w k : Nat) :
    (positionXor c B w).testBit k =
      xorOver (positions c) (fun pos => wordBit c B w pos && pos.testBit k) := by
  rw [positionXor, foldl_xor_testBit, xorOver_filter, Nat.zero_testBit, Bool.false_xor]

/-- The positions with bit `k` are `2 ^ k` and those that it covers. -/
theorem testBit_eq_covers (k pos : Nat) :
    pos.testBit k = (covers k pos ^^ decide (pos = 2 ^ k)) := by
  obtain hlt | rfl | hgt := Nat.lt_trichotomy pos (2 ^ k)
  · simp [covers, Nat.testBit_lt_two_pow hlt, hlt.ne, hlt.not_gt]
  · simp [covers]
  · simp [covers, hgt, hgt.ne']

theorem syndrome_eq_positionXor {c : Instance} (h : c.wf) (B : List Byte) (w : Nat) :
    syndrome c B w = positionXor c B w := by
  apply Nat.eq_of_testBit_eq
  intro k
  rw [syndrome_testBit h, positionXor_testBit]
  by_cases hk : k < c.n
  · have hle := two_pow_le_codebits h hk
    have hmem : 2 ^ k ∈ positions c := mem_positions.mpr ⟨Nat.one_le_two_pow, hle⟩
    have hnodup : (positions c).Nodup := List.nodup_range'
    rw [decide_eq_true hk, Bool.true_and, parity_eq_coveredParity hle, coveredParity_eq,
      ← xorOver_single hnodup hmem (wordBit c B w), ← xorOver_xor]
    refine xorOver_congr fun pos _ => ?_
    rw [← Bool.and_xor_distrib_right, ← testBit_eq_covers, Bool.and_comm]
  · rw [decide_eq_false hk, Bool.false_and]
    refine (xorOver_eq_false fun pos hpos => ?_).symm
    obtain ⟨-, -, hcode, -⟩ := h
    have hpow : 2 ^ c.n ≤ 2 ^ k := Nat.pow_le_pow_right (by decide) (Nat.not_lt.mp hk)
    have hpos := (mem_positions.mp hpos).2
    rw [Nat.testBit_lt_two_pow (by omega), Bool.and_false]

/-- Settles O32: bit `k` of a position says that `2 ^ k` covers it or is it. -/
theorem syndromeIsXorOfOnePositions : Obligations.SyndromeIsXorOfOnePositions :=
  fun _ B w h => ⟨syndrome_testBit h B w, syndrome_eq_positionXor h B w⟩

/-! ### Inverted bits and the syndrome (R118, R123, R124) -/

/-- The words and positions of a buffer do not share a bit. -/
theorem bitIndex_inj {c : Instance} {v w pos pos' : Nat} (hpos : 1 ≤ pos)
    (hpos' : 1 ≤ pos') (hle : pos ≤ 8 * c.wordbytes) (hle' : pos' ≤ 8 * c.wordbytes) :
    wordBase c v + (pos - 1) = wordBase c w + (pos' - 1) ↔ v = w ∧ pos = pos' := by
  refine ⟨fun h => ?_, by rintro ⟨rfl, rfl⟩; rfl⟩
  have hbits : 0 < 8 * c.wordbytes := by omega
  have hdiv := congrArg (· / (8 * c.wordbytes)) h
  simp only [wordBase, Nat.mul_add_div hbits,
    Nat.div_eq_of_lt (show pos - 1 < 8 * c.wordbytes by omega),
    Nat.div_eq_of_lt (show pos' - 1 < 8 * c.wordbytes by omega), Nat.add_zero] at hdiv
  subst hdiv
  exact ⟨rfl, by omega⟩

/-- An inverted bit as an XOR. -/
theorem getBitOrZero_flipBit_eq_xor {B : List Byte} {i : Nat} (h : i / 8 < B.length) (j : Nat) :
    getBitOrZero (flipBit B i) j = (getBitOrZero B j ^^ decide (j = i)) := by
  rw [getBitOrZero_flipBit _ _ _ h]
  by_cases hj : j = i <;> simp [hj]

theorem wordBit_flipBit {c : Instance} {B : List Byte} {v w pos pos' : Nat} (hpos : 1 ≤ pos)
    (hpos' : 1 ≤ pos') (hle : pos ≤ 8 * c.wordbytes) (hle' : pos' ≤ 8 * c.wordbytes)
    (hB : (wordBase c w + (pos - 1)) / 8 < B.length) :
    wordBit c (flipBit B (wordBase c w + (pos - 1))) v pos' =
      (wordBit c B v pos' ^^ decide (v = w ∧ pos' = pos)) := by
  rw [wordBit, getBitOrZero_flipBit_eq_xor hB,
    decide_eq_decide.mpr (bitIndex_inj hpos' hpos hle' hle), wordBit]

theorem codebits_le_bits {c : Instance} (h : c.wf) : c.codebits ≤ 8 * c.wordbytes := by
  have := Instance.wf_eight_mul_wordbytes h
  omega

/-- The syndrome reads no bit but those of the word's positions. -/
theorem positionXor_congr {c : Instance} {B C : List Byte} {v w : Nat}
    (h : ∀ pos, 1 ≤ pos → pos ≤ c.codebits → wordBit c B v pos = wordBit c C w pos) :
    positionXor c B v = positionXor c C w := by
  have hfilter : (positions c).filter (wordBit c B v) = (positions c).filter (wordBit c C w) := by
    refine List.filter_congr fun pos hpos => ?_
    obtain ⟨h1, h2⟩ := mem_positions.mp hpos
    exact h pos h1 h2
  rw [positionXor, hfilter, positionXor]

theorem positionXor_of_flip {c : Instance} {B C : List Byte} {w pos : Nat}
    (hpos : pos ∈ positions c)
    (h : ∀ i, 1 ≤ i → i ≤ c.codebits → wordBit c C w i = (wordBit c B w i ^^ decide (i = pos))) :
    positionXor c C w = positionXor c B w ^^^ pos := by
  apply Nat.eq_of_testBit_eq
  intro k
  have hnodup : (positions c).Nodup := List.nodup_range'
  rw [Nat.testBit_xor, positionXor_testBit, positionXor_testBit,
    ← xorOver_single hnodup hpos (fun i => i.testBit k), ← xorOver_xor]
  refine xorOver_congr fun i hi => ?_
  obtain ⟨h1, h2⟩ := mem_positions.mp hi
  rw [h i h1 h2, Bool.and_xor_distrib_right]

theorem wordbytes_pos {c : Instance} (h : c.wf) : 0 < c.wordbytes := by
  have := Instance.wf_eight_mul_wordbytes h
  have := Instance.wf_databits_add_n h
  have := Instance.wf_one_le_databits h
  omega

section
variable {c : Instance} (hwf : c.wf) {B : List Byte} {w pos : Nat} (hpos : 1 ≤ pos)
  (hB : (wordBase c w + (pos - 1)) / 8 < B.length)
include hwf hpos hB

theorem syndrome_flipBit (hle : pos ≤ c.codebits) :
    syndrome c (flipBit B (wordBase c w + (pos - 1))) w = syndrome c B w ^^^ pos := by
  have hbits := codebits_le_bits hwf
  rw [syndrome_eq_positionXor hwf, syndrome_eq_positionXor hwf]
  refine positionXor_of_flip (mem_positions.mpr ⟨hpos, hle⟩) fun i h1 h2 => ?_
  rw [wordBit_flipBit hpos h1 (by omega) (by omega) hB]
  simp

/-- Other words, and the word of a padding bit, keep their syndrome. -/
theorem syndrome_flipBit_of_ne (hle : pos ≤ 8 * c.wordbytes) {v : Nat}
    (hne : v ≠ w ∨ c.codebits < pos) :
    syndrome c (flipBit B (wordBase c w + (pos - 1))) v = syndrome c B v := by
  have hbits := codebits_le_bits hwf
  rw [syndrome_eq_positionXor hwf, syndrome_eq_positionXor hwf]
  refine positionXor_congr fun i h1 h2 => ?_
  have hother : ¬ (v = w ∧ i = pos) := by omega
  rw [wordBit_flipBit hpos h1 hle (by omega) hB, decide_eq_false hother, Bool.xor_false]

end

/-- Settles O35: one bit is one term of the XOR of positions. -/
theorem flippedBitShiftsSyndromeByItsPosition :
    Obligations.FlippedBitShiftsSyndromeByItsPosition := by
  intro c B w pos hwf hpos hle hB
  refine ⟨?_, fun v hv => syndrome_flipBit_of_ne hwf hpos hB hle (.inl hv)⟩
  split
  · rename_i hcode; exact syndrome_flipBit hwf hpos hB hcode
  · rename_i hcode; exact syndrome_flipBit_of_ne hwf hpos hB hle (.inr (Nat.not_le.mp hcode))

/-! ### Loops and the bits of a word -/

/-- A loop over `0 .. n - 1` keeps what each of its turns carries on. -/
theorem foldl_range_induction {α : Type} {f : α → Nat → α} {P : Nat → α → Prop} {a : α} {n : Nat}
    (h0 : P 0 a) (hstep : ∀ k < n, ∀ b, P k b → P (k + 1) (f b k)) :
    P n ((List.range n).foldl f a) := by
  induction n with
  | zero => exact h0
  | succ n ih =>
    rw [List.range_succ, List.foldl_append]
    exact hstep n n.lt_succ_self _ (ih fun k hk => hstep k (Nat.lt_succ_of_lt hk))

/-- The bits of the whole words of a buffer exist. -/
theorem bitIndex_lt {c : Instance} {len w pos : Nat} (hw : w < len / c.wordbytes) (hpos : 1 ≤ pos)
    (hle : pos ≤ 8 * c.wordbytes) : (wordBase c w + (pos - 1)) / 8 < len := by
  have hbytes : (w + 1) * c.wordbytes ≤ len := (Nat.le_div_iff_mul_le (by omega)).mp hw
  have hbase : wordBase c w + 8 * c.wordbytes = 8 * ((w + 1) * c.wordbytes) := by
    rw [wordBase]; ring
  omega

theorem wordBit_setBit {c : Instance} {B : List Byte} {v w pos pos' : Nat} (hpos : 1 ≤ pos)
    (hpos' : 1 ≤ pos') (hle : pos ≤ 8 * c.wordbytes) (hle' : pos' ≤ 8 * c.wordbytes)
    (hB : (wordBase c w + (pos - 1)) / 8 < B.length) (b : Bool) :
    wordBit c (setBit B (wordBase c w + (pos - 1)) b) v pos' =
      if v = w ∧ pos' = pos then b else wordBit c B v pos' := by
  rw [wordBit, getBitOrZero_setBit _ _ _ _ hB]
  simp only [bitIndex_inj hpos' hpos hle' hle, wordBit]

/-- A parity position lies within the bytes of its word. -/
theorem two_pow_le_bits {c : Instance} (h : c.wf) {k : Nat} (hk : k < c.n) :
    2 ^ k ≤ 8 * c.wordbytes :=
  (two_pow_le_codebits h hk).trans (codebits_le_bits h)

/-- Writing a bit's own value changes nothing. -/
theorem setBit_self {B : List Byte} {i : Nat} (h : i / 8 < B.length) :
    setBit B i (getBitOrZero B i) = B := by
  refine bytes_ext (setBit_length _ _ _) fun j _ => ?_
  rw [getBitOrZero_setBit _ _ _ _ h]
  split
  · rename_i hj; rw [hj]
  · rfl

/-! ### `HAM.COMPUTE` (R116) -/

/-- Parity position `2 ^ i` of word `v` comes before rank `k` of word `w`. -/
abbrev ComputedBefore (c : Instance) (w k v i : Nat) : Prop :=
  i < c.n ∧ (v < w ∨ v = w ∧ i < k)

/-- `C` is `B` with the parity bits before rank `k` of word `w` stored. -/
structure ParityStored (c : Instance) (B : List Byte) (w k : Nat) (C : List Byte) : Prop where
  length : C.length = B.length
  stored : ∀ v i, ComputedBefore c w k v i → wordBit c C v (2 ^ i) = coveredParity c B v (2 ^ i)
  kept : ∀ j, (∀ v i, ComputedBefore c w k v i → j ≠ wordBase c v + (2 ^ i - 1)) →
    getBitOrZero C j = getBitOrZero B j

section
variable {c : Instance} (hwf : c.wf) {B C : List Byte} {w k : Nat}
include hwf

/-- Storing parity bits changes no data position. -/
theorem ParityStored.sameData (h : ParityStored c B w k C) (v : Nat) : SameData c C B v := by
  rintro pos ⟨hpos, hle, hdata⟩
  refine h.kept _ fun u i hi heq => ?_
  have hbits := codebits_le_bits hwf
  obtain ⟨-, rfl⟩ := (bitIndex_inj hpos Nat.one_le_two_pow (by omega)
    (two_pow_le_bits hwf hi.1)).mp heq
  simp [isPow2_two_pow] at hdata

theorem ParityStored.after_computeBit (hw : w < B.length / c.wordbytes) (hk : k < c.n)
    (h : ParityStored c B w k C) : ParityStored c B w (k + 1) (computeBit c w C k) := by
  have hbits := two_pow_le_bits hwf hk
  have hindex : (wordBase c w + (2 ^ k - 1)) / 8 < C.length := by
    rw [h.length]
    exact bitIndex_lt hw Nat.one_le_two_pow hbits
  rw [computeBit, wordBase_add_two_pow_sub_one,
    parity_eq_coveredParity (two_pow_le_codebits hwf hk), coveredParity_congr (h.sameData hwf w)]
  refine ⟨by rw [setBit_length, h.length], fun v i hi => ?_, fun j hj => ?_⟩
  · rw [wordBit_setBit Nat.one_le_two_pow Nat.one_le_two_pow hbits (two_pow_le_bits hwf hi.1)
      hindex]
    split
    · rename_i heq; rw [heq.1, heq.2]
    · rename_i hne
      have hik : ¬ (v = w ∧ i = k) := fun e => hne ⟨e.1, by rw [e.2]⟩
      exact h.stored v i (by omega)
  · have hjk : j ≠ wordBase c w + (2 ^ k - 1) := hj w k (by omega)
    rw [getBitOrZero_setBit _ _ _ _ hindex, if_neg hjk]
    exact h.kept j fun v i hi => hj v i (by omega)

theorem ParityStored.after_computeWord (hw : w < B.length / c.wordbytes)
    (h : ParityStored c B w 0 C) : ParityStored c B (w + 1) 0 (computeWord c C w) := by
  obtain ⟨hlen, hstored, hkept⟩ := foldl_range_induction (P := ParityStored c B w) (n := c.n)
    h fun k hk C' h' => h'.after_computeBit hwf hw hk
  exact ⟨hlen, fun v i hi => hstored v i (by omega),
    fun j hj => hkept j fun v i hi => hj v i (by omega)⟩

theorem hamComputeBuf_parityStored (B : List Byte) :
    ParityStored c B (B.length / c.wordbytes) 0 (hamComputeBuf c B) :=
  foldl_range_induction (P := fun w => ParityStored c B w 0)
    ⟨rfl, fun v i hi => absurd hi (by omega), fun _ _ => rfl⟩
    fun _ hw _ h => h.after_computeWord hwf hw

/-- A word whose stored parity bits are those computed is a code word. -/
theorem syndrome_hamComputeBuf (hw : w < B.length / c.wordbytes) :
    syndrome c (hamComputeBuf c B) w = 0 := by
  have h := hamComputeBuf_parityStored hwf B
  apply Nat.eq_of_testBit_eq
  intro k
  rw [syndrome_testBit hwf, Nat.zero_testBit]
  by_cases hk : k < c.n
  · rw [parity_eq_coveredParity (two_pow_le_codebits hwf hk),
      coveredParity_congr (h.sameData hwf w), h.stored w k ⟨hk, .inl hw⟩, Bool.xor_self,
      Bool.and_false]
  · rw [decide_eq_false hk, Bool.false_and]

/-- In a code word the stored parity bits are those computed. -/
theorem parity_of_codeWord (hcw : IsCodeWord c B w) (hk : k < c.n) :
    parity c B w (2 ^ k) = wordBit c B w (2 ^ k) := by
  have hbit := syndrome_testBit hwf B w k
  rw [hcw, Nat.zero_testBit, decide_eq_true hk, Bool.true_and] at hbit
  simpa using hbit.symm

theorem computeBit_of_codeWord (hw : w < B.length / c.wordbytes) (hcw : IsCodeWord c B w)
    (hk : k < c.n) : computeBit c w B k = B := by
  rw [computeBit, parity_of_codeWord hwf hcw hk, wordBase_add_two_pow_sub_one, wordBit]
  exact setBit_self (bitIndex_lt hw Nat.one_le_two_pow (two_pow_le_bits hwf hk))

theorem hamComputeBuf_of_codeWords (hcw : ∀ w < B.length / c.wordbytes, IsCodeWord c B w) :
    hamComputeBuf c B = B := by
  refine foldl_range_induction (P := fun _ C => C = B) rfl fun w hw C hC => ?_
  subst hC
  exact foldl_range_induction (P := fun _ C' => C' = C) rfl fun k hk C' hC' => by
    subst hC'
    exact computeBit_of_codeWord hwf hw (hcw w hw) hk

/-- Every word computed is a code word already. -/
theorem hamComputeBuf_hamComputeBuf (B : List Byte) :
    hamComputeBuf c (hamComputeBuf c B) = hamComputeBuf c B :=
  hamComputeBuf_of_codeWords hwf fun _ hw => syndrome_hamComputeBuf hwf (by simpa using hw)

end

/-- The state `HAM.COMPUTE` leaves. -/
def State.afterHamCompute (s : State) : State :=
  { s with mem := Memory.ofBytes (hamComputeBuf s.inst s.buf), status := okStatus false }

@[simp] theorem State.afterHamCompute_inst (s : State) : s.afterHamCompute.inst = s.inst := rfl

@[simp] theorem State.afterHamCompute_buf (s : State) :
    s.afterHamCompute.buf = hamComputeBuf s.inst s.buf := Memory.bytes_ofBytes _

@[simp] theorem State.afterHamCompute_len (s : State) : s.afterHamCompute.len = s.len := by
  rw [← State.buf_length, State.afterHamCompute_buf, hamComputeBuf_length, State.buf_length]

theorem State.afterHamCompute_idem {s : State} (hwf : s.inst.wf) :
    s.afterHamCompute.afterHamCompute = s.afterHamCompute := by
  conv_lhs => rw [State.afterHamCompute, State.afterHamCompute_buf, State.afterHamCompute_inst,
    hamComputeBuf_hamComputeBuf hwf]
  rfl

section
variable {s : State} (hh : s.status.halted = false)
include hh

theorem exec_hamCompute_of_fits (hl : s.len % s.inst.wordbytes = 0)
    (hfit : Instance.bitsFit s.inst s.len = true) :
    exec .hamCompute s = .next s.afterHamCompute :=
  State.whenRunning_eq_ended (u := s.setBuf (hamComputeBuf s.inst s.buf)) hh rfl
    (by rw [if_neg (not_not.mpr hl), if_pos hfit])

theorem exec_hamCompute_of_ragged (hl : s.len % s.inst.wordbytes ≠ 0) :
    exec .hamCompute s = .next { s with status := errStatus .invalidState } :=
  State.whenRunning_eq_raised hh (by decide) (if_pos hl)

end

/-- Settles O31: the two loops store one parity bit per turn, and read no parity bit. -/
theorem hamComputeStoresParityOnly : Obligations.HamComputeStoresParityOnly := by
  refine fun s hwf hh => ⟨fun hl hfit => ?_, exec_hamCompute_of_ragged hh⟩
  have h := hamComputeBuf_parityStored hwf s.buf
  rw [State.buf_length] at h
  refine ⟨s.afterHamCompute, exec_hamCompute_of_fits hh hl hfit, rfl, rfl,
    s.afterHamCompute_len, ?stored, ?kept, ?idempotent⟩
  case stored =>
    intro w k hw hk
    rw [State.afterHamCompute_buf]
    exact h.stored w k ⟨hk, .inl hw⟩
  case kept =>
    intro j hj
    rw [State.afterHamCompute_buf]
    refine h.kept j fun v i hi => ?_
    rw [← wordBase_add_two_pow_sub_one]
    exact hj v i (by omega) hi.1
  case idempotent =>
    rw [exec_hamCompute_of_fits rfl (by simpa using hl) (by simpa using hfit),
      State.afterHamCompute_idem hwf]

/-- Settles O36: after `HAM.COMPUTE` computed and stored parity agree. -/
theorem hamComputeLeavesCodeWords : Obligations.HamComputeLeavesCodeWords := by
  intro s hwf hh hl hfit
  refine ⟨s.afterHamCompute, exec_hamCompute_of_fits hh hl hfit, fun w hw => ?_⟩
  rw [State.afterHamCompute_buf]
  exact syndrome_hamComputeBuf hwf (by simpa using hw)

/-! ### The data positions of a word (30_encoding.md R50) -/

theorem dataRank_eq_count (pos : Nat) :
    dataRank pos = Nat.count (fun q => isPow2 (q + 1) = false) (pos - 1) := by
  rw [dataRank, ← List.countP_eq_length_filter, List.range'_eq_map_range, List.countP_map,
    Nat.count]
  congr 1
  funext q
  simp [Nat.add_comm]

@[simp] theorem dataRank_one : dataRank 1 = 0 := rfl

theorem dataRank_add_two (q : Nat) :
    dataRank (q + 2) = dataRank (q + 1) + if isPow2 (q + 1) = false then 1 else 0 := by
  rw [dataRank_eq_count, dataRank_eq_count]
  exact Nat.count_succ _ _

/-- Data positions are numbered in rising order. -/
theorem dataRank_lt_dataRank {pos pos' : Nat} (hpos : 1 ≤ pos) (hdata : isPow2 pos = false)
    (hlt : pos < pos') : dataRank pos < dataRank pos' := by
  rw [dataRank_eq_count, dataRank_eq_count]
  refine Nat.count_strict_mono ?_ (by omega)
  rwa [Nat.sub_add_cancel hpos]

/-- The parity positions of a word are the powers of two of its ranks. -/
theorem filter_isPow2_positions_perm {c : Instance} (h : c.wf) :
    ((positions c).filter isPow2).Perm ((List.range c.n).map (2 ^ ·)) := by
  have hmap : ((List.range c.n).map (2 ^ ·)).Nodup :=
    List.nodup_range.map (Nat.pow_right_injective (Nat.le_refl 2))
  have hpos : (positions c).Nodup := List.nodup_range'
  refine (List.perm_ext_iff_of_nodup (hpos.filter _) hmap).mpr fun pos => ?_
  simp only [List.mem_filter, mem_positions, List.mem_map, List.mem_range, isPow2_iff]
  constructor
  · rintro ⟨⟨-, hle⟩, k, rfl⟩
    obtain ⟨-, -, hcode, -⟩ := h
    exact ⟨k, (Nat.pow_lt_pow_iff_right (by decide)).mp (by omega : 2 ^ k < 2 ^ c.n), rfl⟩
  · rintro ⟨k, hk, rfl⟩
    exact ⟨⟨Nat.one_le_two_pow, two_pow_le_codebits h hk⟩, k, rfl⟩

/-- A word has `DATABITS` data positions. -/
theorem dataRank_codebits_succ {c : Instance} (h : c.wf) :
    dataRank (c.codebits + 1) = c.databits := by
  have hparity := (filter_isPow2_positions_perm h).length_eq
  have hsplit := List.length_eq_length_filter_add (l := positions c) isPow2
  have hdata := Instance.wf_databits_add_n h
  simp only [positions, List.length_map, List.length_range, List.length_range'] at hparity hsplit
  rw [dataRank, Nat.add_sub_cancel]
  omega

theorem dataRank_lt_databits {c : Instance} (h : c.wf) {pos : Nat} (hpos : isDataPos c pos) :
    dataRank pos < c.databits := by
  obtain ⟨h1, hle, hdata⟩ := hpos
  rw [← dataRank_codebits_succ h]
  exact dataRank_lt_dataRank h1 hdata (Nat.lt_succ_of_le hle)

/-- Every number below `DATABITS` is that of a data position. -/
theorem exists_dataRank_eq {c : Instance} (h : c.wf) {r : Nat} (hr : r < c.databits) :
    ∃ pos, isDataPos c pos ∧ dataRank pos = r := by
  rw [← dataRank_codebits_succ h, dataRank_eq_count, Nat.add_sub_cancel] at hr
  have hcard : ∀ hf : (Set.ofPred fun q => isPow2 (q + 1) = false).Finite, r < hf.toFinset.card :=
    fun hf => hr.trans_le (Nat.count_le_card hf _)
  refine ⟨Nat.nth _ r + 1,
    ⟨Nat.le_add_left _ _, Nat.nth_lt_of_lt_count hr, Nat.nth_mem r hcard⟩, ?_⟩
  rw [dataRank_eq_count]
  exact Nat.count_nth hcard

/-! ### `HAM.INIT` (R115) -/

/-- Bit `j` of the encoded buffer: at a data position the payload bit of that number, else 0. -/
def spreadBit (c : Instance) (B : List Byte) (j : Nat) : Bool :=
  let pos := j % (8 * c.wordbytes) + 1
  if pos ≤ c.codebits ∧ isPow2 pos = false then
    getBitOrZero B (j / (8 * c.wordbytes) * c.databits + dataRank pos)
  else false

theorem spreadBit_wordBase_add (c : Instance) (B : List Byte) (w : Nat) {q : Nat}
    (hq : q < 8 * c.wordbytes) :
    spreadBit c B (wordBase c w + q) =
      if q + 1 ≤ c.codebits ∧ isPow2 (q + 1) = false then
        getBitOrZero B (w * c.databits + dataRank (q + 1))
      else false := by
  have hbits : 0 < 8 * c.wordbytes := by omega
  rw [spreadBit, wordBase, Nat.mul_add_div hbits, Nat.mul_add_mod, Nat.div_eq_of_lt hq,
    Nat.mod_eq_of_lt hq]
  rfl

/-- One more bit of a closed form. -/
theorem decide_lt_succ_and (g : Nat → Bool) (j m : Nat) :
    (decide (j < m + 1) && g j) = if j = m then g m else decide (j < m) && g j := by
  split
  · rename_i hj
    simp [hj]
  · rename_i hj
    rw [decide_eq_decide.mpr (show j < m + 1 ↔ j < m by omega)]

theorem wordBase_succ (c : Instance) (w : Nat) :
    wordBase c (w + 1) = wordBase c w + 8 * c.wordbytes :=
  Nat.mul_succ _ _

theorem initPos_of_parity (c : Instance) (B : List Byte) (w : Nat) (a : List Byte × Nat) {q : Nat}
    (h : isPow2 (q + 1) = true) : initPos c B w a q = a :=
  if_pos h

theorem initPos_of_data (c : Instance) (B : List Byte) (w : Nat) (a : List Byte × Nat) {q : Nat}
    (h : isPow2 (q + 1) = false) :
    initPos c B w a q = (setBit a.1 (wordBase c w + q) (getBitOrZero B a.2), a.2 + 1) :=
  if_neg (by simp [isParityPos, h])

/-- The loops of `HAM.INIT` before 0-based position `q` of word `w`: the output holds the bits below
that position, and the next payload bit is the number of data positions below it. -/
structure SpreadBelow (c : Instance) (B : List Byte) (w q : Nat) (a : List Byte × Nat) : Prop where
  length : a.1.length = initWords c B.length * c.wordbytes
  bits : ∀ j, getBitOrZero a.1 j = (decide (j < wordBase c w + q) && spreadBit c B j)
  next : a.2 = w * c.databits + dataRank (q + 1)

section
variable {c : Instance} (hwf : c.wf) {B : List Byte} {w : Nat} {a : List Byte × Nat}
include hwf

theorem SpreadBelow.after_initPos {q : Nat} (hw : w < initWords c B.length) (hq : q < c.codebits)
    (h : SpreadBelow c B w q a) : SpreadBelow c B w (q + 1) (initPos c B w a q) := by
  have hbits := codebits_le_bits hwf
  have hspread := spreadBit_wordBase_add c B w (show q < 8 * c.wordbytes by omega)
  have hrank := dataRank_add_two q
  cases hpow : isPow2 (q + 1) with
  | true =>
    rw [hpow] at hspread hrank
    rw [initPos_of_parity c B w a hpow]
    refine ⟨h.length, fun j => ?_, h.next.trans (by rw [hrank]; rfl)⟩
    rw [h.bits, ← Nat.add_assoc, decide_lt_succ_and]
    split
    · rename_i hj
      simp [hj, hspread]
    · rfl
  | false =>
    rw [hpow, if_pos ⟨hq, rfl⟩] at hspread
    rw [hpow, if_pos rfl] at hrank
    have hindex : (wordBase c w + q) / 8 < a.1.length := by
      rw [h.length]
      refine bitIndex_lt (pos := q + 1) ?_ (Nat.le_add_left _ _) (by omega)
      rwa [Nat.mul_div_cancel _ (wordbytes_pos hwf)]
    rw [initPos_of_data c B w a hpow]
    refine ⟨(setBit_length _ _ _).trans h.length, fun j => ?_, ?_⟩
    · rw [getBitOrZero_setBit _ _ _ _ hindex, h.bits, ← Nat.add_assoc, decide_lt_succ_and, hspread,
        h.next]
    · rw [h.next, hrank, Nat.add_assoc]

/-- The padding bits of a word are 0. -/
theorem spreadBit_padding {j : Nat} (hlo : wordBase c w + c.codebits ≤ j)
    (hhi : j < wordBase c (w + 1)) : spreadBit c B j = false := by
  rw [wordBase_succ] at hhi
  obtain ⟨q, rfl⟩ := Nat.exists_eq_add_of_le (Nat.le_trans (Nat.le_add_right _ _) hlo)
  rw [spreadBit_wordBase_add c B w (by omega), if_neg (by omega)]

theorem SpreadBelow.after_initWord (hw : w < initWords c B.length) (h : SpreadBelow c B w 0 a) :
    SpreadBelow c B (w + 1) 0 (initWord c B a w) := by
  obtain ⟨hlen, hbits, hnext⟩ := foldl_range_induction (P := SpreadBelow c B w) (n := c.codebits)
    h fun q hq a' h' => h'.after_initPos hwf hw hq
  refine ⟨hlen, fun j => (hbits j).trans ?_, ?_⟩
  · have hword := codebits_le_bits hwf
    have hsucc := wordBase_succ c w
    by_cases hlo : j < wordBase c w + c.codebits
    · simp [hlo, show j < wordBase c (w + 1) by omega]
    · by_cases hhi : j < wordBase c (w + 1)
      · simp [hlo, spreadBit_padding hwf (Nat.not_lt.mp hlo) hhi]
      · simp [hlo, hhi]
  · exact hnext.trans (by rw [dataRank_codebits_succ hwf, dataRank_one]; ring)

theorem hamInitBuf_spread (B : List Byte) :
    ∃ t, SpreadBelow c B (initWords c B.length) 0 (hamInitBuf c B, t) :=
  ⟨_, foldl_range_induction (P := fun w => SpreadBelow c B w 0)
    ⟨zeros_length _, fun j => by simp [getBitOrZero_zeros, wordBase], by simp⟩
    fun _ hw _ h => h.after_initWord hwf hw⟩

theorem wordBit_hamInitBuf {pos : Nat} (hw : w < initWords c B.length) (hpos : 1 ≤ pos)
    (hle : pos ≤ 8 * c.wordbytes) :
    wordBit c (hamInitBuf c B) w pos =
      if pos ≤ c.codebits ∧ isPow2 pos = false then
        getBitOrZero B (w * c.databits + dataRank pos)
      else false := by
  obtain ⟨t, h⟩ := hamInitBuf_spread hwf B
  have hlast : wordBase c (w + 1) ≤ wordBase c (initWords c B.length) :=
    Nat.mul_le_mul_left _ hw
  rw [wordBase_succ] at hlast
  rw [wordBit, h.bits, decide_eq_true (by omega), Bool.true_and,
    spreadBit_wordBase_add c B w (by omega), Nat.sub_add_cancel hpos]

end

/-- The state `HAM.INIT` leaves. -/
def State.afterHamInit (s : State) : State :=
  { s with mem := Memory.ofBytes (hamInitBuf s.inst s.buf), status := okStatus false }

@[simp] theorem State.afterHamInit_inst (s : State) : s.afterHamInit.inst = s.inst := rfl

@[simp] theorem State.afterHamInit_buf (s : State) :
    s.afterHamInit.buf = hamInitBuf s.inst s.buf := Memory.bytes_ofBytes _

@[simp] theorem State.afterHamInit_len (s : State) :
    s.afterHamInit.len = encodedLen s.inst s.len := by
  rw [← State.buf_length, State.afterHamInit_buf, hamInitBuf_length, State.buf_length]

theorem exec_hamInit_eq_next {s : State} (hh : s.status.halted = false)
    (hfit : Instance.bitsFit s.inst s.len = true)
    (hfit' : Instance.bitsFit s.inst (encodedLen s.inst s.len) = true)
    (hcap : Instance.capOk s.inst (encodedLen s.inst s.len) = true) :
    exec .hamInit s = .next s.afterHamInit :=
  State.whenRunning_eq_ended (u := s.setBuf (hamInitBuf s.inst s.buf)) hh rfl
    (by rw [if_pos (by rw [hfit, hfit']; rfl), State.growTo_of_fits (by simpa using hcap)])

/-- Settles O30: the payload bit counter is the number of data positions passed. -/
theorem hamInitSpreadsPayloadBits : Obligations.HamInitSpreadsPayloadBits := by
  intro s hwf hh hfit hfit' hcap
  refine ⟨s.afterHamInit, exec_hamInit_eq_next hh hfit hfit' hcap, rfl, rfl,
    s.afterHamInit_len, fun w pos hw hpos hle => ?_⟩
  rw [State.afterHamInit_buf]
  exact wordBit_hamInitBuf hwf (by rwa [State.buf_length]) hpos hle

/-! ### `HAM.VERIFY` (R117 to R123) -/

theorem syndrome_congr {c : Instance} (hwf : c.wf) {B C : List Byte} {w : Nat}
    (h : ∀ pos, 1 ≤ pos → pos ≤ c.codebits → wordBit c B w pos = wordBit c C w pos) :
    syndrome c B w = syndrome c C w := by
  rw [syndrome_eq_positionXor hwf, syndrome_eq_positionXor hwf, positionXor_congr h]

/-- The bit at position `pos` of word `w` after the correction of R119. -/
def correctedBit (c : Instance) (B : List Byte) (w pos : Nat) : Bool :=
  wordBit c B w pos ^^ decide (pos = syndrome c B w)

/-- One word of `HAM.VERIFY` where the syndrome is consistent. -/
def verifiedWord (c : Instance) (a : VerifyAcc) (w : Nat) : VerifyAcc :=
  (List.range c.codebits).foldl (extractPos c w)
    { a with buf := correctWord c a.buf w (syndrome c a.buf w) }

@[simp] theorem correctWord_length (c : Instance) (B : List Byte) (w e : Nat) :
    (correctWord c B w e).length = B.length := by
  unfold correctWord; split <;> simp

theorem extractPos_of_parity (c : Instance) (w : Nat) (a : VerifyAcc) {q : Nat}
    (h : isPow2 (q + 1) = true) : extractPos c w a q = a :=
  if_pos h

theorem extractPos_of_data (c : Instance) (w : Nat) (a : VerifyAcc) {q : Nat}
    (h : isPow2 (q + 1) = false) :
    extractPos c w a q =
      { a with out := setBit a.out a.o (getBitOrZero a.buf (wordBase c w + q)), o := a.o + 1 } :=
  if_neg (by simp [isParityPos, h])

theorem extractPos_buf (c : Instance) (w : Nat) (a : VerifyAcc) (q : Nat) :
    (extractPos c w a q).buf = a.buf := by
  unfold extractPos; split <;> rfl

/-- The loops of `HAM.VERIFY` before 0-based position `q` of word `w`: the output holds the
corrected data bits below that position, in the order of their numbers, and zeros above. -/
structure ExtractedBelow (c : Instance) (B : List Byte) (w q : Nat) (a : VerifyAcc) : Prop where
  length : a.out.length = ceilDiv (B.length / c.wordbytes * c.databits) 8
  next : a.o = w * c.databits + dataRank (q + 1)
  bits : ∀ v pos, isDataPos c pos → (v < w ∨ v = w ∧ pos ≤ q) →
    getBitOrZero a.out (v * c.databits + dataRank pos) = correctedBit c B v pos
  zero : ∀ j, a.o ≤ j → getBitOrZero a.out j = false

/-- The words of `HAM.VERIFY` before word `w`: the later words still stand as they were. -/
structure VerifiedBelow (c : Instance) (B : List Byte) (w : Nat) (a : VerifyAcc) : Prop where
  length : a.buf.length = B.length
  later : ∀ v pos, w ≤ v → 1 ≤ pos → pos ≤ c.codebits →
    wordBit c a.buf v pos = wordBit c B v pos
  extracted : ExtractedBelow c B w 0 a

/-- The payload `HAM.VERIFY` extracts from `B`: every word's corrected data bits, and zeros. -/
structure Extracted (c : Instance) (B out : List Byte) : Prop where
  length : out.length = ceilDiv (B.length / c.wordbytes * c.databits) 8
  bits : ∀ w pos, w < B.length / c.wordbytes → isDataPos c pos →
    getBitOrZero out (w * c.databits + dataRank pos) = correctedBit c B w pos
  zero : ∀ j, B.length / c.wordbytes * c.databits ≤ j → getBitOrZero out j = false

section
variable {c : Instance} (hwf : c.wf) {B : List Byte} {w : Nat} {a : VerifyAcc}
include hwf

theorem verifyWord_eq_some (a : VerifyAcc) (w : Nat) :
    verifyWord c a w = some (verifiedWord c a w) :=
  if_neg (Nat.not_lt.mpr (syndrome_le_codebits hwf a.buf w))

theorem verifyWords_eq_some (ws : List Nat) :
    ∀ a, verifyWords c ws a = some (ws.foldl (verifiedWord c) a) := by
  induction ws with
  | nil => exact fun _ => rfl
  | cons w ws ih =>
    intro a
    simp only [verifyWords, verifyWord_eq_some hwf, ih, List.foldl_cons]

theorem wordBit_correctWord {e : Nat} (hw : w < B.length / c.wordbytes) (he : e ≤ c.codebits)
    {v pos : Nat} (hpos : 1 ≤ pos) (hle : pos ≤ c.codebits) :
    wordBit c (correctWord c B w e) v pos = (wordBit c B v pos ^^ decide (v = w ∧ pos = e)) := by
  have hbits := codebits_le_bits hwf
  unfold correctWord
  split
  · rename_i he1
    rw [Nat.add_sub_assoc he1, wordBit_flipBit he1 hpos (by omega) (by omega)
      (bitIndex_lt hw he1 (by omega))]
  · rename_i he0
    rw [decide_eq_false (by omega), Bool.xor_false]

/-- The output index of a data bit, like its bit index, rises with the word and the position. -/
theorem outIndex_lt {v pos pos' : Nat} (hpos : isDataPos c pos)
    (hlt : v < w ∨ v = w ∧ pos < pos') :
    v * c.databits + dataRank pos < w * c.databits + dataRank pos' := by
  obtain hv | ⟨rfl, hlt⟩ := hlt
  · have hrank := dataRank_lt_databits hwf hpos
    have hword : v * c.databits + c.databits ≤ w * c.databits := by
      rw [← Nat.succ_mul]
      exact Nat.mul_le_mul_right _ hv
    omega
  · obtain ⟨h1, -, hdata⟩ := hpos
    exact Nat.add_lt_add_left (dataRank_lt_dataRank h1 hdata hlt) _

theorem ExtractedBelow.after_extractPos {q : Nat} (hw : w < B.length / c.wordbytes)
    (hq : q < c.codebits) (hbuf : wordBit c a.buf w (q + 1) = correctedBit c B w (q + 1))
    (h : ExtractedBelow c B w q a) : ExtractedBelow c B w (q + 1) (extractPos c w a q) := by
  have hrank := dataRank_add_two q
  cases hpow : isPow2 (q + 1) with
  | true =>
    rw [hpow] at hrank
    rw [extractPos_of_parity c w a hpow]
    refine ⟨h.length, by rw [h.next, hrank]; rfl, fun v pos hpos hlt => ?_, h.zero⟩
    have hne : pos ≠ q + 1 := by
      rintro rfl
      obtain ⟨-, -, hdata⟩ := hpos
      simp [hpow] at hdata
    exact h.bits v pos hpos (by omega)
  | false =>
    rw [hpow, if_pos rfl] at hrank
    have hdata : isDataPos c (q + 1) := ⟨Nat.le_add_left _ _, hq, hpow⟩
    have hindex : a.o / 8 < a.out.length := by
      have hlast := outIndex_lt hwf (w := B.length / c.wordbytes) (pos' := 1) hdata (.inl hw)
      rw [h.length, h.next, ceilDiv]
      rw [dataRank_one] at hlast
      omega
    rw [extractPos_of_data c w a hpow]
    refine ⟨by rw [setBit_length, h.length], ?next, fun v pos hpos hlt => ?bits,
      fun j hj => ?zero⟩
    case next => rw [h.next, hrank, Nat.add_assoc]
    case bits =>
      rw [getBitOrZero_setBit _ _ _ _ hindex]
      by_cases hcur : v = w ∧ pos = q + 1
      · obtain ⟨rfl, rfl⟩ := hcur
        rw [if_pos h.next.symm]
        exact hbuf
      · have hearlier := outIndex_lt hwf (w := w) (v := v) (pos' := q + 1) hpos (by omega)
        rw [if_neg (by rw [h.next]; omega)]
        exact h.bits v pos hpos (by omega)
    case zero =>
      have hj : a.o + 1 ≤ j := hj
      rw [getBitOrZero_setBit _ _ _ _ hindex, if_neg (by omega)]
      exact h.zero j (by omega)

/-- A corrected word is copied to the output, its data positions in rising order. -/
theorem ExtractedBelow.after_word (hw : w < B.length / c.wordbytes)
    (hbuf : ∀ q < c.codebits, wordBit c a.buf w (q + 1) = correctedBit c B w (q + 1))
    (h : ExtractedBelow c B w 0 a) :
    ((List.range c.codebits).foldl (extractPos c w) a).buf = a.buf ∧
      ExtractedBelow c B (w + 1) 0 ((List.range c.codebits).foldl (extractPos c w) a) := by
  obtain ⟨hkept, hlen, hnext, hbits, hzero⟩ := foldl_range_induction (n := c.codebits)
    (P := fun q b => b.buf = a.buf ∧ ExtractedBelow c B w q b) ⟨rfl, h⟩
    fun q hq b hb => ⟨(extractPos_buf c w b q).trans hb.1,
      hb.2.after_extractPos hwf hw hq (by rw [hb.1]; exact hbuf q hq)⟩
  refine ⟨hkept, hlen, ?next, fun v pos hpos hlt => ?bits, hzero⟩
  case next => exact hnext.trans (by rw [dataRank_codebits_succ hwf, dataRank_one]; ring)
  case bits =>
    have hle : pos ≤ c.codebits := hpos.2.1
    exact hbits v pos hpos (by omega)

theorem VerifiedBelow.after_verifiedWord (hw : w < B.length / c.wordbytes)
    (h : VerifiedBelow c B w a) : VerifiedBelow c B (w + 1) (verifiedWord c a w) := by
  have hsyn : syndrome c a.buf w = syndrome c B w :=
    syndrome_congr hwf fun pos h1 h2 => h.later w pos (Nat.le_refl _) h1 h2
  have hcorrected : ∀ v pos, w ≤ v → 1 ≤ pos → pos ≤ c.codebits →
      wordBit c (correctWord c a.buf w (syndrome c a.buf w)) v pos =
        (wordBit c B v pos ^^ decide (v = w ∧ pos = syndrome c B w)) := by
    intro v pos hv h1 h2
    rw [wordBit_correctWord hwf (by rwa [h.length]) (syndrome_le_codebits hwf _ _) h1 h2,
      h.later v pos hv h1 h2, hsyn]
  obtain ⟨hlen, hnext, hbits, hzero⟩ := h.extracted
  obtain ⟨hbuf, hextracted⟩ := ExtractedBelow.after_word hwf hw
    (a := { a with buf := correctWord c a.buf w (syndrome c a.buf w) })
    (fun q hq => by simpa [correctedBit] using hcorrected w (q + 1) (Nat.le_refl _) (by omega) hq)
    ⟨hlen, hnext, hbits, hzero⟩
  refine ⟨?length, fun v pos hv h1 h2 => ?later, hextracted⟩
  case length =>
    rw [verifiedWord, hbuf, correctWord_length, h.length]
  case later =>
    rw [verifiedWord, hbuf, hcorrected v pos (by omega) h1 h2, decide_eq_false (by omega),
      Bool.xor_false]

/-- R117 in closed form. -/
theorem hamVerifyBuf_extracted (B : List Byte) :
    ∃ out, hamVerifyBuf c B = some out ∧ Extracted c B out := by
  have h := foldl_range_induction (P := VerifiedBelow c B) (f := verifiedWord c)
    (n := B.length / c.wordbytes)
    (a := { buf := B, out := zeros (ceilDiv (B.length / c.wordbytes * c.databits) 8), o := 0 })
    ⟨rfl, fun _ _ _ _ _ => rfl, zeros_length _, by simp,
      fun v pos hpos hlt => absurd hpos.1 (by omega), fun j _ => getBitOrZero_zeros _ j⟩
    fun w hw a ha => ha.after_verifiedWord hwf hw
  obtain ⟨-, -, hlen, hnext, hbits, hzero⟩ := h
  refine ⟨_, by rw [hamVerifyBuf, verifyWords_eq_some hwf], hlen,
    fun w pos hw hpos => hbits w pos hpos (.inl hw), fun j hj => hzero j ?_⟩
  rw [hnext]
  simpa using hj

/-- Every bit of a payload of `words` words is the data bit of a word. -/
theorem exists_outIndex_eq {words j : Nat} (hj : j < words * c.databits) :
    ∃ w pos, w < words ∧ isDataPos c pos ∧ j = w * c.databits + dataRank pos := by
  have hD := Instance.wf_one_le_databits hwf
  obtain ⟨pos, hpos, hrank⟩ := exists_dataRank_eq hwf (Nat.mod_lt j hD)
  exact ⟨j / c.databits, pos, (Nat.div_lt_iff_lt_mul hD).mpr hj, hpos,
    by rw [hrank, Nat.div_add_mod']⟩

/-- A payload is known from its length and its words' data bits. -/
theorem payload_ext {words : Nat} {P Q : List Byte} (hlen : P.length = Q.length)
    (hbits : ∀ w pos, w < words → isDataPos c pos →
      getBitOrZero P (w * c.databits + dataRank pos) =
        getBitOrZero Q (w * c.databits + dataRank pos))
    (hP : ∀ j, words * c.databits ≤ j → getBitOrZero P j = false)
    (hQ : ∀ j, words * c.databits ≤ j → getBitOrZero Q j = false) : P = Q := by
  refine bytes_ext hlen fun j _ => ?_
  obtain hj | hj := Nat.lt_or_ge j (words * c.databits)
  · obtain ⟨w, pos, hw, hpos, rfl⟩ := exists_outIndex_eq hwf hj
    exact hbits w pos hw hpos
  · rw [hP j hj, hQ j hj]

end

/-- The state `HAM.VERIFY` leaves with payload `out`. -/
def State.afterHamVerify (s : State) (out : List Byte) : State :=
  { s with mem := Memory.ofBytes out, status := okStatus true }

@[simp] theorem State.afterHamVerify_buf (s : State) (out : List Byte) :
    (s.afterHamVerify out).buf = out := Memory.bytes_ofBytes _

@[simp] theorem State.afterHamVerify_len (s : State) (out : List Byte) :
    (s.afterHamVerify out).len = out.length := by
  rw [← State.buf_length, State.afterHamVerify_buf]

section
variable {s : State} (hh : s.status.halted = false)
include hh

theorem exec_hamVerify_of_fits (hwf : s.inst.wf) (hl : s.len % s.inst.wordbytes = 0)
    (hfit : Instance.bitsFit s.inst s.len = true) :
    ∃ out, exec .hamVerify s = .next (s.afterHamVerify out) ∧ Extracted s.inst s.buf out := by
  obtain ⟨out, hout, hext⟩ := hamVerifyBuf_extracted hwf s.buf
  exact ⟨out, State.whenRunning_eq_ended (u := s.setBuf out) hh rfl
    (by rw [if_neg (not_not.mpr hl), if_pos hfit, hout]), hext⟩

theorem exec_hamVerify_of_ragged (hl : s.len % s.inst.wordbytes ≠ 0) :
    exec .hamVerify s = .next { s with status := errStatus .invalidState } :=
  State.whenRunning_eq_raised hh (by decide) (if_pos hl)

end

/-- Settles O34: the words are corrected one by one, each by its own bits, and copied in order. -/
theorem hamVerifyCorrectsAndExtracts : Obligations.HamVerifyCorrectsAndExtracts := by
  refine fun s hwf hh => ⟨fun hl hfit => ?_, exec_hamVerify_of_ragged hh⟩
  obtain ⟨out, hexec, hlen, hbits, hzero⟩ := exec_hamVerify_of_fits hh hwf hl hfit
  rw [State.buf_length] at hlen hbits hzero
  refine ⟨_, hexec, rfl, rfl, by rwa [State.afterHamVerify_len], fun w pos hw hpos => ?_, ?_⟩
  · rw [State.afterHamVerify_buf, hbits w pos hw hpos, correctedBit, syndrome_eq_positionXor hwf]
  · rwa [State.afterHamVerify_buf]

/-! ### The round trip (R126 (a)) -/

theorem getBitOrZero_append_zeros (B : List Byte) (k j : Nat) :
    getBitOrZero (B ++ zeros k) j = getBitOrZero B j := by
  obtain hj | hj := Nat.lt_or_ge (j / 8) B.length
  · simp only [getBitOrZero, List.getElem?_append_left hj]
  · have hzeros := getBitOrZero_zeros k (j - 8 * B.length)
    rw [getBitOrZero, Nat.sub_mul_div, Nat.sub_mul_mod (by omega)] at hzeros
    rw [getBitOrZero_of_le hj, getBitOrZero, List.getElem?_append_right hj]
    exact hzeros

theorem le_ceilDiv_mul (a : Nat) {b : Nat} (hb : 0 < b) : a ≤ ceilDiv a b * b := by
  have h := Nat.lt_div_mul_add (a := a + b - 1) hb
  rw [ceilDiv]
  omega

theorem correctedBit_of_codeWord {c : Instance} {B : List Byte} {w pos : Nat}
    (hcw : IsCodeWord c B w) (hpos : 1 ≤ pos) : correctedBit c B w pos = wordBit c B w pos := by
  rw [correctedBit, hcw, decide_eq_false (by omega), Bool.xor_false]

section
variable {c : Instance} (hwf : c.wf) {B : List Byte}
include hwf

/-- The data bits that `HAM.INIT` spreads come back in their order. -/
theorem correctedBit_encoded {w pos : Nat} (hw : w < initWords c B.length)
    (hpos : isDataPos c pos) :
    correctedBit c (hamComputeBuf c (hamInitBuf c B)) w pos =
      getBitOrZero B (w * c.databits + dataRank pos) := by
  have hbits := codebits_le_bits hwf
  have hw' : w < (hamInitBuf c B).length / c.wordbytes := by
    rwa [hamInitBuf_length, Nat.mul_div_cancel _ (wordbytes_pos hwf)]
  have hdata := (hamComputeBuf_parityStored hwf (hamInitBuf c B)).sameData hwf w pos hpos
  obtain ⟨h1, hle, hpow⟩ := hpos
  rw [correctedBit_of_codeWord (syndrome_hamComputeBuf hwf hw') h1, hdata,
    wordBit_hamInitBuf hwf hw h1 (by omega), if_pos ⟨hle, hpow⟩]

theorem extracted_of_encoded {out : List Byte}
    (h : Extracted c (hamComputeBuf c (hamInitBuf c B)) out) :
    out = B ++ zeros (ceilDiv (initWords c B.length * c.databits) 8 - B.length) := by
  obtain ⟨hlen, hbits, hzero⟩ := h
  rw [hamComputeBuf_length, hamInitBuf_length, Nat.mul_div_cancel _ (wordbytes_pos hwf)]
    at hlen hbits hzero
  have hle : 8 * B.length ≤ initWords c B.length * c.databits :=
    le_ceilDiv_mul _ (Instance.wf_one_le_databits hwf)
  refine payload_ext hwf (words := initWords c B.length) ?len (fun w pos hw hpos => ?bits) hzero
    (fun j hj => ?zero)
  case len =>
    rw [hlen, List.length_append, zeros_length]
    refine (Nat.add_sub_of_le ?_).symm
    rw [ceilDiv]
    omega
  case bits =>
    rw [hbits w pos hw hpos, correctedBit_encoded hwf hw hpos, getBitOrZero_append_zeros]
  case zero =>
    rw [getBitOrZero_append_zeros]
    exact getBitOrZero_of_le (by omega)

end

/-- Settles O38: the encoded words are code words, so nothing is corrected. -/
theorem hamRoundTripRestoresPayload : Obligations.HamRoundTripRestoresPayload := by
  intro s hwf hh hfit hfit' hcap
  have hl : s.afterHamInit.len % s.inst.wordbytes = 0 := by
    rw [State.afterHamInit_len]
    exact Nat.mul_mod_left _ _
  have hfit₁ : Instance.bitsFit s.inst s.afterHamInit.len = true := by
    rwa [State.afterHamInit_len]
  obtain ⟨out, hexec, hext⟩ := exec_hamVerify_of_fits (s := s.afterHamInit.afterHamCompute) rfl hwf
    (by rwa [State.afterHamCompute_len]) (by rwa [State.afterHamCompute_len])
  refine ⟨_, _, _, exec_hamInit_eq_next hh hfit hfit' hcap, exec_hamCompute_of_fits rfl hl hfit₁,
    hexec, rfl, rfl, ?_⟩
  rw [State.afterHamCompute_buf, State.afterHamInit_buf] at hext
  rw [State.afterHamVerify_buf, extracted_of_encoded hwf hext, State.buf_length]

/-! ### One flipped bit (R126 (b)) -/

section
variable {c : Instance} (hwf : c.wf) {B : List Byte} {w pos : Nat} (hpos : 1 ≤ pos)
  (hle : pos ≤ 8 * c.wordbytes) (hB : (wordBase c w + (pos - 1)) / 8 < B.length)
include hwf hpos hle hB

/-- The correction undoes a flipped bit of a code word, and a padding bit is not looked at. -/
theorem correctedBit_flipBit {v pos' : Nat} (hcw : IsCodeWord c B v) (hpos' : 1 ≤ pos')
    (hle' : pos' ≤ c.codebits) :
    correctedBit c (flipBit B (wordBase c w + (pos - 1))) v pos' = correctedBit c B v pos' := by
  have hbits := codebits_le_bits hwf
  rw [correctedBit_of_codeWord hcw hpos', correctedBit,
    wordBit_flipBit hpos hpos' hle (by omega) hB]
  by_cases hflip : v = w ∧ pos ≤ c.codebits
  · obtain ⟨rfl, hcode⟩ := hflip
    rw [syndrome_flipBit hwf hpos hB hcode, hcw, Nat.zero_xor]
    simp
  · rw [syndrome_flipBit_of_ne hwf hpos hB hle (by omega), hcw, decide_eq_false (by omega),
      decide_eq_false (by omega), Bool.xor_false, Bool.xor_false]

theorem extracted_flipBit {out out' : List Byte}
    (hcw : ∀ v < B.length / c.wordbytes, IsCodeWord c B v) (h : Extracted c B out)
    (h' : Extracted c (flipBit B (wordBase c w + (pos - 1))) out') : out' = out := by
  obtain ⟨hlen, hbits, hzero⟩ := h
  obtain ⟨hlen', hbits', hzero'⟩ := h'
  rw [flipBit_length] at hlen' hbits' hzero'
  refine payload_ext hwf (hlen'.trans hlen.symm) (fun v pos' hv hpos' => ?_) hzero' hzero
  rw [hbits' v pos' hv hpos', hbits v pos' hv hpos']
  obtain ⟨h1, h2, -⟩ := hpos'
  exact correctedBit_flipBit hwf hpos hle hB (hcw v hv) h1 h2

end

/-- A bit of a buffer of whole words is at a position of a word: quotient and remainder. -/
theorem exists_bitIndex_eq {c : Instance} (hwf : c.wf) {len j : Nat} (hl : len % c.wordbytes = 0)
    (hj : j < 8 * len) :
    ∃ w pos, w < len / c.wordbytes ∧ 1 ≤ pos ∧ pos ≤ 8 * c.wordbytes ∧
      j = wordBase c w + (pos - 1) ∧ j / (8 * c.wordbytes) = w ∧
      j % (8 * c.wordbytes) + 1 = pos := by
  have hmod := Nat.mod_lt j (Nat.mul_pos (by decide : 0 < 8) (wordbytes_pos hwf))
  refine ⟨_, _, ?_, Nat.le_add_left _ _, hmod, (Nat.div_add_mod _ _).symm, rfl, rfl⟩
  rw [← Nat.div_div_eq_div_mul]
  refine Nat.div_lt_of_lt_mul ?_
  rw [Nat.mul_div_cancel' (Nat.dvd_of_mod_eq_zero hl)]
  omega

/-- Settles O37: a code word with one bit inverted names that bit. -/
theorem hamCorrectsEverySingleBitFlip : Obligations.HamCorrectsEverySingleBitFlip := by
  intro s j hwf hh hl hfit hcw hj
  obtain ⟨w, pos, hw, hpos, hle, rfl, hdiv, hmod⟩ := exists_bitIndex_eq hwf hl hj
  have hB : (wordBase s.inst w + (pos - 1)) / 8 < s.buf.length := by
    rw [State.buf_length]
    exact bitIndex_lt hw hpos hle
  refine ⟨?payload, fun hcode => ?syndrome⟩
  case payload =>
    obtain ⟨out, hexec, hext⟩ := exec_hamVerify_of_fits hh hwf hl hfit
    obtain ⟨out', hexec', hext'⟩ := exec_hamVerify_of_fits
      (s := s.setBuf (flipBit s.buf (wordBase s.inst w + (pos - 1)))) hh hwf
      (by simpa using hl) (by simpa using hfit)
    rw [State.setBuf_buf] at hext'
    refine ⟨_, _, hexec, hexec', ?_, rfl⟩
    rw [State.afterHamVerify_buf, State.afterHamVerify_buf]
    exact extracted_flipBit hwf hpos hle hB (by rwa [State.buf_length]) hext hext'
  case syndrome =>
    rw [hdiv, hmod, syndrome_flipBit hwf hpos hB (by omega), hcw w hw, Nat.zero_xor]

/-! ### Two flipped bits (R124, R126 (c)) -/

theorem xor_ne_left {p q : Nat} (hq : q ≠ 0) : p ^^^ q ≠ p := fun h =>
  hq (Nat.xor_right_inj.mp (h.trans (Nat.xor_zero p).symm))

theorem xor_ne_right {p q : Nat} (hp : p ≠ 0) : p ^^^ q ≠ q := by
  rw [Nat.xor_comm]
  exact xor_ne_left hp

/-- The XOR of two positions of a word is 0 or a position of the word. -/
theorem xor_le_codebits {c : Instance} (hwf : c.wf) {p q : Nat} (hp : p ≤ c.codebits)
    (hq : q ≤ c.codebits) : p ^^^ q ≤ c.codebits := by
  obtain ⟨-, -, hcode, -⟩ := hwf
  have := Nat.xor_lt_two_pow (x := p) (y := q) (n := c.n) (by omega) (by omega)
  omega

/-- Of three different positions at most one is `x`. -/
theorem xor_decide_eq {p q r : Nat} (hpq : p ≠ q) (hrp : r ≠ p) (hrq : r ≠ q) (x : Nat) :
    ((decide (x = p) ^^ decide (x = q)) ^^ decide (x = r)) =
      decide (x = p ∨ x = q ∨ x = r) := by
  by_cases hxp : x = p
  · simp [hxp, hpq, hrp.symm]
  · by_cases hxq : x = q <;> simp [hxq, hxp, hrq.symm, hpq.symm]

section
variable {c : Instance} (hwf : c.wf) {B : List Byte} {w p q : Nat}
  (hw : w < B.length / c.wordbytes) (hp : p ∈ positions c) (hq : q ∈ positions c)
include hwf hw hp hq

theorem wordBit_flipPositions {v pos : Nat} (hpos : pos ∈ positions c) :
    wordBit c (flipPositions c B w p q) v pos =
      ((wordBit c B v pos ^^ decide (v = w ∧ pos = p)) ^^ decide (v = w ∧ pos = q)) := by
  have hbits := codebits_le_bits hwf
  rw [mem_positions] at hp hq hpos
  rw [flipPositions, wordBit_flipBit hq.1 hpos.1 (by omega) (by omega)
      (by rw [flipBit_length]; exact bitIndex_lt hw hq.1 (by omega)),
    wordBit_flipBit hp.1 hpos.1 (by omega) (by omega) (bitIndex_lt hw hp.1 (by omega))]

theorem syndrome_flipPositions :
    syndrome c (flipPositions c B w p q) w = syndrome c B w ^^^ p ^^^ q := by
  have hbits := codebits_le_bits hwf
  rw [mem_positions] at hp hq
  rw [flipPositions, syndrome_flipBit hwf hq.1
      (by rw [flipBit_length]; exact bitIndex_lt hw hq.1 (by omega)) hq.2,
    syndrome_flipBit hwf hp.1 (bitIndex_lt hw hp.1 (by omega)) hp.2]

theorem syndrome_flipPositions_of_ne {v : Nat} (hv : v ≠ w) :
    syndrome c (flipPositions c B w p q) v = syndrome c B v := by
  refine syndrome_congr hwf fun pos h1 h2 => ?_
  rw [wordBit_flipPositions hwf hw hp hq (mem_positions.mpr ⟨h1, h2⟩)]
  simp [hv]

/-- In a code word the two flipped bits stay wrong, and a third bit is inverted. -/
theorem correctedBit_flipPositions {v pos : Nat} (hcw : IsCodeWord c B w) (hne : p ≠ q)
    (hpos : pos ∈ positions c) :
    correctedBit c (flipPositions c B w p q) v pos =
      (correctedBit c B v pos ^^ decide (v = w ∧ (pos = p ∨ pos = q ∨ pos = p ^^^ q))) := by
  rw [correctedBit, wordBit_flipPositions hwf hw hp hq hpos]
  by_cases hv : v = w
  · subst hv
    have hp0 : p ≠ 0 := Nat.ne_of_gt (mem_positions.mp hp).1
    have hq0 : q ≠ 0 := Nat.ne_of_gt (mem_positions.mp hq).1
    rw [syndrome_flipPositions hwf hw hp hq, hcw, Nat.zero_xor,
      correctedBit_of_codeWord hcw (mem_positions.mp hpos).1]
    simp only [true_and, Bool.xor_assoc]
    rw [← xor_decide_eq hne (xor_ne_left hq0) (xor_ne_right hp0), Bool.xor_assoc]
  · rw [syndrome_flipPositions_of_ne hwf hw hp hq hv, correctedBit]
    simp [hv]

end

/-- Settles O56: the syndrome of the damaged word is the XOR of the two positions, a third one. -/
theorem hamDoubleFlipMiscorrectsAtXor : Obligations.HamDoubleFlipMiscorrectsAtXor := by
  intro s w p q hwf hh hl hfit hw hcw hp1 hp hq1 hq hne
  have hw' : w < s.buf.length / s.inst.wordbytes := by rwa [State.buf_length]
  have hpmem : p ∈ positions s.inst := mem_positions.mpr ⟨hp1, hp⟩
  have hqmem : q ∈ positions s.inst := mem_positions.mpr ⟨hq1, hq⟩
  have hthird : p ^^^ q ≠ 0 := mt Nat.xor_eq_zero_iff.mp hne
  refine ⟨?syndrome, Nat.one_le_iff_ne_zero.mpr hthird, xor_le_codebits hwf hp hq,
    xor_ne_left (by omega), xor_ne_right (by omega), ?payload⟩
  case syndrome => rw [syndrome_flipPositions hwf hw' hpmem hqmem, hcw, Nat.zero_xor]
  case payload =>
    obtain ⟨out, hexec, hlen, hbits, hzero⟩ := exec_hamVerify_of_fits hh hwf hl hfit
    obtain ⟨out', hexec', hlen', hbits', hzero'⟩ := exec_hamVerify_of_fits
      (s := s.setBuf (flipPositions s.inst s.buf w p q)) hh hwf (by simpa using hl)
      (by simpa using hfit)
    rw [State.setBuf_buf, flipPositions_length, State.setBuf_inst] at hlen' hbits' hzero'
    rw [State.buf_length] at hbits hzero hbits' hzero'
    refine ⟨_, _, hexec, hexec', rfl, rfl, ?len, fun v pos hv hpos => ?bits, fun j hj => ?zero⟩
    case len => rw [State.afterHamVerify_len, State.afterHamVerify_len, hlen', hlen]
    case bits =>
      rw [State.afterHamVerify_buf, State.afterHamVerify_buf, hbits' v pos hv hpos,
        hbits v pos hv hpos]
      obtain ⟨h1, h2, -⟩ := hpos
      exact correctedBit_flipPositions hwf hw' hpmem hqmem hcw hne (mem_positions.mpr ⟨h1, h2⟩)
    case zero =>
      rw [State.afterHamVerify_buf, State.afterHamVerify_buf, hzero' j hj, hzero j hj]

end Sys2Proof.Machine

/-! ## Errors and HALTED: lemmas and proofs (60_exceptions.md) -/

namespace Sys2Proof.Machine

/-! ### STATUS stays coherent (60_exceptions.md R150, R152; 10_state.md R15) -/

theorem State.finish_coherent {s : State} (hh : s.status.halted = false) (r : Bool) :
    (s.finish r).StatusCoherent := by
  simp [State.StatusCoherent, hh]

/-- The one error entry halts exactly for the fatal kind and clears RESULT. -/
theorem State.raise_coherent {s : State} (hh : s.status.halted = false) (e : ErrKind) :
    (s.raise e).StatusCoherent := by
  simp [State.StatusCoherent, Status.raised_halted, hh]

theorem exec_keeps_coherent {i : Instr} {s t : State} (hs : s.StatusCoherent)
    (h : exec i s = .next t) : t.StatusCoherent := by
  cases exec_effect h with
  | frozen => exact hs
  | raised hh e => exact State.raise_coherent hh e
  | rdataWritten hh _ v => exact State.finish_coherent (s := s.setRdata v) hh false
  | bufferWritten hh m r => exact State.finish_coherent (s := { s with mem := m }) hh r
  | abandoned hh =>
    exact State.raise_coherent (s := (s.setBuf _).bumpFree) hh .internalInconsistency

/-- What an action of the host that answers a next state did, by what it means for STATUS: it ran a
command, gave an illegal word, reset the instance, or touched neither STATUS nor the configuration. -/
inductive ActionEffect (a : HostAction) (s t : State) : Prop where
  | command (i : Instr) (h : exec i s = .next t)
  | illegal (hh : s.status.halted = false) (ht : t = s.raise .illegalCommand)
  | reset (ha : a = .reset) (hinst : t.inst = s.inst) (hstatus : t.status = Status.reset)
  | accessed (hinst : t.inst = s.inst) (hstatus : t.status = s.status)

theorem runCommandWord_effect {a : HostAction} {v : Byte} {s t : State}
    (h : runCommandWord v s = .next t) : ActionEffect a s t := by
  obtain ⟨i, -, hi⟩ | ⟨r, -, hr⟩ := runCommandWord_next h
  · exact .command i hi
  · obtain ⟨-, rfl⟩ | ⟨hh, ht⟩ := State.illegalCommand_next hr
    · exact .accessed rfl rfl
    · exact .illegal hh ht

theorem hostStep_effect {a : HostAction} {s t : State} (h : hostStep a s = .next t) :
    ActionEffect a s t := by
  cases a with
  | writeReg number value =>
    obtain ⟨-, -, hrun⟩ | ⟨-, -, rfl⟩ | ⟨-, -, rfl⟩ | ⟨-, -, -, rfl⟩ := hostWrite_next h
    · exact runCommandWord_effect hrun
    · exact .accessed rfl rfl
    · exact .accessed rfl rfl
    · exact .accessed rfl rfl
  | readReg number => cases h; exact .accessed rfl rfl
  | readByte index => obtain ⟨v, rfl⟩ := hostReadByte_next h; exact .accessed rfl rfl
  | readBit index => cases h; exact .accessed rfl rfl
  | load B => obtain ⟨-, rfl⟩ := hostLoad_next h; exact .accessed rfl rfl
  | reset => cases h; exact .reset rfl rfl rfl

/-- The inversion of a step that answers a next state: idle, or the effect of the next action. -/
theorem step_effect {s t : State} (h : step s = .next t) :
    t = s ∨ ∃ a rest, s.pending = a :: rest ∧ ActionEffect a (s.setPending rest) t := by
  obtain ⟨-, hidle⟩ | ⟨a, rest, hp, hact⟩ := step_cases s
  · rw [hidle] at h; cases h; exact .inl rfl
  · rw [hact] at h; exact .inr ⟨a, rest, hp, hostStep_effect h⟩

theorem ActionEffect.keeps_coherent {a : HostAction} {s t : State} (hs : s.StatusCoherent)
    (h : ActionEffect a s t) : t.StatusCoherent := by
  cases h with
  | command i h => exact exec_keeps_coherent hs h
  | illegal hh ht => rw [ht]; exact State.raise_coherent hh _
  | reset _ _ hstatus => simp [State.StatusCoherent, hstatus, Status.reset]
  | accessed _ hstatus => simpa only [State.StatusCoherent, hstatus] using hs

/-- Settles O54: STATUS is written by the two endings of a running command and by reset only. -/
theorem stepKeepsStatusCoherent : Obligations.StepKeepsStatusCoherent := by
  intro s t hs h
  obtain rfl | ⟨a, rest, -, heff⟩ := step_effect h
  · exact hs
  · exact heff.keeps_coherent (s := s.setPending rest) hs

/-! ### The errors of the commands (60_exceptions.md R143, R148, R150) -/

/-- Where `InvalidState` is raised (R143). -/
abbrev InvalidStateCase (i : Instr) (s : State) : Prop :=
  ((i = .hamCompute ∨ i = .hamVerify) ∧ s.len % s.inst.wordbytes ≠ 0) ∨
    (i = .crcCompute ∧ s.len < 2)

/-- Where `IndexOutOfRange` is raised (R148). -/
abbrev IndexOutOfRangeCase (i : Instr) (s : State) : Prop :=
  ((i = .bufRdbyte ∨ i = .bufWrbyte) ∧ s.len ≤ s.idx) ∨ (i = .bufSetbit ∧ s.len ≤ s.idx / 8)

/-- The error a command can end with, and what it means about the state it ran in. -/
inductive ErrorCause (i : Instr) (s : State) : ErrKind → Prop where
  | noError : ErrorCause i s .noError
  | invalidState (h : InvalidStateCase i s) : ErrorCause i s .invalidState
  | indexOutOfRange (h : IndexOutOfRangeCase i s) : ErrorCause i s .indexOutOfRange
  | internalInconsistency : ErrorCause i s .internalInconsistency

theorem exec_errorCause {i : Instr} {s t : State} (hh : s.status.halted = false)
    (hmem : s.mem.wf) (h : exec i s = .next t) : ErrorCause i s t.status.err := by
  cases i with
  | bufClear => obtain rfl := exec_bufClear_next hh h; exact .noError
  | bufPush => obtain ⟨-, rfl⟩ := exec_bufPush_next hh h; exact .noError
  | bufRdbyte =>
    obtain ⟨b, -, rfl⟩ | ⟨hnone, rfl⟩ := exec_bufRdbyte_next hh h
    · exact .noError
    · exact .indexOutOfRange (.inl ⟨.inl rfl, (Memory.read_eq_none hmem _).mp hnone⟩)
  | bufWrbyte =>
    obtain ⟨-, rfl⟩ | ⟨hl, rfl⟩ := exec_bufWrbyte_next hh h
    · exact .noError
    · exact .indexOutOfRange (.inl ⟨.inr rfl, hl⟩)
  | bufGetbit => obtain rfl := exec_bufGetbit_next hh h; exact .noError
  | bufSetbit =>
    obtain ⟨-, rfl⟩ | ⟨hl, rfl⟩ := exec_bufSetbit_next hh h
    · exact .noError
    · exact .indexOutOfRange (.inr ⟨rfl, hl⟩)
  | crcInit => obtain ⟨-, rfl⟩ := exec_crcInit_next hh h; exact .noError
  | crcCompute =>
    obtain ⟨hl, rfl⟩ | ⟨-, rfl⟩ := exec_crcCompute_next hh h
    · exact .invalidState (.inr ⟨rfl, hl⟩)
    · exact .noError
  | crcVerify =>
    obtain ⟨-, rfl⟩ | ⟨-, rfl⟩ := exec_crcVerify_next hh h
    · exact .noError
    · exact .noError
  | hamInit => obtain ⟨-, rfl⟩ := exec_hamInit_next hh h; exact .noError
  | hamCompute =>
    obtain ⟨hl, rfl⟩ | ⟨-, rfl⟩ := exec_hamCompute_next hh h
    · exact .invalidState (.inl ⟨.inl rfl, hl⟩)
    · exact .noError
  | hamVerify =>
    obtain ⟨hl, rfl⟩ | ⟨-, out, -, rfl⟩ | ⟨-, -, rfl⟩ := exec_hamVerify_next hh h
    · exact .invalidState (.inl ⟨.inr rfl, hl⟩)
    · exact .noError
    · exact .internalInconsistency

theorem exec_of_invalidStateCase {i : Instr} {s : State} (hh : s.status.halted = false)
    (h : InvalidStateCase i s) : exec i s = .next { s with status := errStatus .invalidState } := by
  obtain ⟨rfl | rfl, hl⟩ | ⟨rfl, hl⟩ := h
  · exact exec_hamCompute_of_ragged hh hl
  · exact exec_hamVerify_of_ragged hh hl
  · exact exec_crcCompute_of_lt hh hl

theorem exec_of_indexOutOfRangeCase {i : Instr} {s : State} (hh : s.status.halted = false)
    (hmem : s.mem.wf) (h : IndexOutOfRangeCase i s) :
    exec i s = .next { s with status := errStatus .indexOutOfRange } := by
  obtain ⟨rfl | rfl, hl⟩ | ⟨rfl, hl⟩ := h
  · exact exec_bufRdbyte_of_no_byte hh ((Memory.read_eq_none hmem _).mpr hl)
  · exact exec_bufWrbyte_of_le hh hl
  · exact exec_bufSetbit_of_le hh hl

/-- Settles O41: each command's own test raises, and each error has only that cause. -/
theorem errorsAreRaisedExactlyWhereStated : Obligations.ErrorsAreRaisedExactlyWhereStated := by
  intro i s hh hmem
  refine ⟨exec_of_invalidStateCase hh, exec_of_indexOutOfRangeCase hh hmem, fun t h => ?_⟩
  have hcause := exec_errorCause hh hmem h
  refine ⟨fun herr => ?_, fun herr => ?_⟩
  · rw [herr] at hcause
    cases hcause with
    | invalidState hcase => exact hcase
  · rw [herr] at hcause
    cases hcause with
    | indexOutOfRange hcase => exact hcase

/-- Settles O42: a raise writes STATUS only, and only abandoning `HAM.VERIFY` is fatal. -/
theorem failingCommandsArePrecise : Obligations.FailingCommandsArePrecise := by
  intro i s t hrun h
  cases exec_effect h with
  | frozen hh => simp [hrun] at hh
  | raised hh e he =>
    have hfatal : e ≠ .internalInconsistency := by rcases he with rfl | rfl <;> decide
    have hillegal : e ≠ .illegalCommand := by rcases he with rfl | rfl <;> decide
    refine ⟨fun _ _ => ?_, fun herr => absurd herr hfatal, hillegal⟩
    rw [State.raise_eq, Status.raised_eq_errStatus hh hfatal]
  | rdataWritten => simp
  | bufferWritten => simp
  | abandoned => simp [(State.abandon_frame s).1]

/-- The branch of `HAM.VERIFY` that finds a syndrome above CODEBITS (R146). -/
theorem exec_hamVerify_of_inconsistent {s : State} (hh : s.status.halted = false)
    (hl : s.len % s.inst.wordbytes = 0) (hfit : Instance.bitsFit s.inst s.len = true)
    (hnone : hamVerifyBuf s.inst s.buf = none) : exec .hamVerify s = .next s.abandon := by
  simp [exec, execHamVerify, hh, hl, hfit, hnone]

/-- Settles O39: the frame of the abandoned `HAM.VERIFY`, whatever the free buffer is. -/
theorem internalInconsistencyHaltsAndFreesBuffer :
    Obligations.InternalInconsistencyHaltsAndFreesBuffer := by
  intro s hh hl hfit hnone
  obtain ⟨hstatus, hinst, hidx, hdata, hrdata, -⟩ := State.abandon_frame s
  exact ⟨_, exec_hamVerify_of_inconsistent hh hl hfit hnone, hstatus, hinst, hidx, hdata, hrdata⟩

/-! ### HALTED (60_exceptions.md R152, 70_reset_and_hazards.md R160) -/

/-- While HALTED no byte written to `CMD` changes anything, a command word or not. -/
theorem runCommandWord_of_halted {s : State} (hh : s.status.halted = true) (w : Byte) :
    runCommandWord w s = .next s := by
  cases hw : decode w with
  | command i => rw [runCommandWord_of_decode hw, exec_of_halted i hh]
  | rejected r => rw [runCommandWord_of_rejected hw]; exact State.whenRunning_of_halted hh _

theorem ActionEffect.status_of_halted {a : HostAction} {s t : State}
    (hh : s.status.halted = true) (ha : a ≠ .reset) (h : ActionEffect a s t) :
    t.status = s.status := by
  cases h with
  | command i h => rw [exec_of_halted i hh] at h; cases h; rfl
  | illegal hrun => simp [hh] at hrun
  | reset hreset => exact absurd hreset ha
  | accessed _ hstatus => exact hstatus

/-- Settles O46: every command meets the HALTED test, and no other action but reset writes STATUS. -/
theorem haltedFreezesUntilReset : Obligations.HaltedFreezesUntilReset := by
  intro s hh
  refine ⟨fun i => exec_of_halted i hh, ?word, ?read, ?status, ?reset⟩
  case word =>
    intro w rest hp
    rw [step_of_pending hp, hostStep, hostWrite_cmd]
    exact runCommandWord_of_halted (s := s.setPending rest) hh w
  case read =>
    intro n rest hp
    exact ⟨_, step_of_pending hp, rfl, rfl⟩
  case status =>
    intro t h hreset
    obtain rfl | ⟨a, rest, hp, heff⟩ := step_effect h
    · rfl
    · have ha : a ≠ .reset := fun e => hreset rest (e ▸ hp)
      exact heff.status_of_halted (s := s.setPending rest) hh ha
  case reset =>
    intro rest hp
    obtain ⟨t, h, -, -, -, -, -, -, -, -, hclear, -⟩ := resetLeavesSpecValues.1 s rest hp
    exact ⟨t, h, hclear⟩

/-! ### Every command ends (60_exceptions.md R150, 92_eei_decisions.md D6, D7) -/

theorem Instance.capOk_of_unbounded {c : Instance} (h : c.bufCap = none) (len : Nat) :
    Instance.capOk c len = true := by
  simp [Instance.capOk, h]

theorem Instance.bitsFit_of_unbounded {c : Instance} (h : c.idxw = none) (len : Nat) :
    Instance.bitsFit c len = true := by
  simp [Instance.bitsFit, Instance.fitsIdx, h]

/-- An answer with a next state, or with the refusal of a limit that the instance has. -/
inductive EndsWithin (c : Instance) : Answer → Prop where
  | next (t : State) : EndsWithin c (.next t)
  | overCapacity (h : c.bufCap ≠ none) : EndsWithin c (.refused .overCapacity)
  | indexTooWide (h : c.idxw ≠ none) : EndsWithin c (.refused .indexTooWide)

theorem EndsWithin.whenRunning {c : Instance} {s : State} {k : Answer} (hk : EndsWithin c k) :
    EndsWithin c (s.whenRunning k) := by
  rw [State.whenRunning]
  split
  · exact .next s
  · exact hk

theorem EndsWithin.ite_next {c : Instance} {p : Prop} [Decidable p] {t : State} {k : Answer}
    (hk : EndsWithin c k) : EndsWithin c (if p then .next t else k) := by
  split
  · exact .next t
  · exact hk

theorem EndsWithin.growTo (s : State) (B : List Byte) : EndsWithin s.inst (s.growTo B) := by
  rw [State.growTo]
  split
  · exact .next _
  · rename_i hexceeds
    exact .overCapacity fun hnone => hexceeds (Instance.capOk_of_unbounded hnone _)

/-- A Hamming command behind its test of the bit indices (93_implementation_defined.md U5). -/
theorem EndsWithin.ite_fits {c : Instance} {p : Prop} [Decidable p] {k : Answer}
    (hp : c.idxw = none → p) (hk : EndsWithin c k) :
    EndsWithin c (if p then k else .refused .indexTooWide) := by
  split
  · exact hk
  · rename_i hwide
    exact .indexTooWide fun hnone => hwide (hp hnone)

/-- Every command ends: each of its branches is a next state or one of the two limits. -/
theorem exec_endsWithin (i : Instr) (s : State) : EndsWithin s.inst (exec i s) := by
  cases i with
  | bufClear => exact .whenRunning (.next _)
  | bufPush => exact .whenRunning (.growTo s _)
  | bufRdbyte =>
    refine .whenRunning ?_
    split
    · exact .next _
    · exact .next _
  | bufWrbyte => exact .whenRunning (.ite_next (.next _))
  | bufGetbit => exact .whenRunning (.next _)
  | bufSetbit => exact .whenRunning (.ite_next (.next _))
  | crcInit => exact .whenRunning (.growTo s _)
  | crcCompute => exact .whenRunning (.ite_next (.next _))
  | crcVerify => exact .whenRunning (.ite_next (.next _))
  | hamInit =>
    refine .whenRunning (.ite_fits (fun hnone => ?_) (.growTo s _))
    simp [Instance.bitsFit_of_unbounded hnone]
  | hamCompute =>
    exact .whenRunning (.ite_next (.ite_fits (Instance.bitsFit_of_unbounded · _) (.next _)))
  | hamVerify =>
    refine .whenRunning (.ite_next (.ite_fits (Instance.bitsFit_of_unbounded · _) ?_))
    split
    · exact .next _
    · exact .next _

/-- Settles O51: the two refusals need a finite limit. -/
theorem everyCommandEnds : Obligations.EveryCommandEnds := by
  intro i s
  have hends := exec_endsWithin i s
  generalize exec i s = answer at hends
  cases hends with
  | next t => simp
  | overCapacity hcap => simp [hcap]
  | indexTooWide hidx => simp [hidx]

/-! ### Reachable states (60_exceptions.md R152, 43_hamming.md R121) -/

theorem ActionEffect.inst_eq {a : HostAction} {s t : State} (h : ActionEffect a s t) :
    t.inst = s.inst := by
  cases h with
  | command i h => exact exec_inst h
  | illegal _ ht => rw [ht]; rfl
  | reset _ hinst => exact hinst
  | accessed hinst => exact hinst

/-- No step changes the configuration (10_state.md R11). -/
theorem step_inst {s t : State} (h : step s = .next t) : t.inst = s.inst := by
  obtain rfl | ⟨a, rest, -, heff⟩ := step_effect h
  · rfl
  · exact heff.inst_eq

/-- The invariant holds of every state a constructed instance reaches. -/
theorem Reachable.inv {c : Instance} {s : State} (hwf : c.wf) (h : Reachable c s) :
    s.Inv ∧ s.inst = c := by
  induction h with
  | start actions => exact ⟨State.resetOf_inv hwf, rfl⟩
  | next _ hstep ih =>
    obtain ⟨hinv, hinst⟩ := ih
    exact ⟨stepKeepsInvariant _ _ hinv hstep, (step_inst hstep).trans hinst⟩

/-- Settles O55: HALTED is 0 in the invariant that every run from reset keeps. -/
theorem reachableStatesAreNeverHalted : Obligations.ReachableStatesAreNeverHalted := by
  intro c s hwf h
  obtain ⟨⟨-, hmem, -, -, hh, -⟩, hinst⟩ := h.inv hwf
  exact ⟨hh, hinst, hmem⟩

end Sys2Proof.Machine

/-! ## A finite IDXW: lemmas and proofs (93_implementation_defined.md U5) -/

namespace Sys2Proof.Machine

section
variable {s : State} (hh : s.status.halted = false)
include hh

/-- `HAM.INIT` tests the bit indices of the payload and of the encoded buffer before it grows. -/
theorem exec_hamInit_of_wide (hwide : Instance.bitsFit s.inst s.len = false ∨
      Instance.bitsFit s.inst (encodedLen s.inst s.len) = false) :
    exec .hamInit s = .refused .indexTooWide := by
  have htest : (Instance.bitsFit s.inst s.len &&
      Instance.bitsFit s.inst (encodedLen s.inst s.len)) = false :=
    Bool.and_eq_false_iff.mpr hwide
  exact (State.whenRunning_of_running hh _).trans (if_neg (Bool.eq_false_iff.mp htest))

section
variable (hl : s.len % s.inst.wordbytes = 0) (hwide : Instance.bitsFit s.inst s.len = false)
include hl hwide

/-- `HAM.COMPUTE` on whole words whose bit indices do not fit. -/
theorem exec_hamCompute_of_wide : exec .hamCompute s = .refused .indexTooWide := by
  simp [exec, execHamCompute, hh, hl, hwide]

/-- `HAM.VERIFY` on whole words whose bit indices do not fit. -/
theorem exec_hamVerify_of_wide : exec .hamVerify s = .refused .indexTooWide := by
  simp [exec, execHamVerify, hh, hl, hwide]

end

end

/-- Settles O50: each Hamming command tests the bit indices before its first write. -/
theorem indexWidthRefusals : Obligations.IndexWidthRefusals := by
  intro s hh
  exact ⟨exec_hamInit_of_wide hh, fun hl hwide =>
    ⟨exec_hamCompute_of_wide hh hl hwide, exec_hamVerify_of_wide hh hl hwide⟩⟩

end Sys2Proof.Machine
